-- ==== Sys2Proof/Word.lean ====
section
/-! DEFINITION. The machine's words: the byte of memory, registers and operands (R11, R40, R60) and the 9-bit program counter (R15). -/

namespace Sys2Proof

/-- 8 bits, unsigned: a register (R11), a memory byte (R40), an opcode or operand byte (R60). -/
abbrev Byte := BitVec 8

/-- 9 bits, unsigned: the program counter (R15). -/
abbrev PcWord := BitVec 9

/-- An index of the register file, 0 to 7 (R11). -/
abbrev RegIdx := Fin 8

end Sys2Proof
end

