-- ==== Sys2Proof/Syntax.lean ====
section
/-! DEFINITION. The instruction set as syntax: the 25 mnemonics and the instructions with their operand bytes (R62, R65). -/

namespace Sys2Proof

/-- The 25 mnemonics (R65), sorted as in the spec's opcode map. -/
inductive Mnemonic where
  | nop | hlt | ret
  | push | pop | prn | call | jmp | jeq | jne | inc | dec | not
  | ldi
  | add | sub | mul | div | mod | cmp | and | or | xor | shl | shr
  deriving DecidableEq, Repr

/-- One instruction: a constructor for each row of the opcode table. A register operand is the WHOLE operand byte
(R63), so an operand above 7 is an instruction too: it is ill-formed, and it raises `RegisterIndexOutOfRange` (R85). -/
inductive Instr where
  /-- NOP (R101) -/
  | nop
  /-- HLT (R100) -/
  | hlt
  /-- RET (R151) -/
  | ret
  /-- PUSH a (R111) -/
  | push (a : Byte)
  /-- POP a (R112) -/
  | pop (a : Byte)
  /-- PRN a (R102) -/
  | prn (a : Byte)
  /-- CALL a (R150) -/
  | call (a : Byte)
  /-- JMP a (R141) -/
  | jmp (a : Byte)
  /-- JEQ a (R142) -/
  | jeq (a : Byte)
  /-- JNE a (R143) -/
  | jne (a : Byte)
  /-- INC a (R125) -/
  | inc (a : Byte)
  /-- DEC a (R126) -/
  | dec (a : Byte)
  /-- NOT a (R133) -/
  | not (a : Byte)
  /-- LDI a imm (R110) -/
  | ldi (a imm : Byte)
  /-- ADD a b (R120) -/
  | add (a b : Byte)
  /-- SUB a b (R121) -/
  | sub (a b : Byte)
  /-- MUL a b (R122) -/
  | mul (a b : Byte)
  /-- DIV a b (R123) -/
  | div (a b : Byte)
  /-- MOD a b (R124) -/
  | mod (a b : Byte)
  /-- CMP a b (R140) -/
  | cmp (a b : Byte)
  /-- AND a b (R130) -/
  | and (a b : Byte)
  /-- OR a b (R131) -/
  | or (a b : Byte)
  /-- XOR a b (R132) -/
  | xor (a b : Byte)
  /-- SHL a b (R134) -/
  | shl (a b : Byte)
  /-- SHR a b (R135) -/
  | shr (a b : Byte)
  deriving DecidableEq, Repr

end Sys2Proof
end

