-- ==== Sys2Proof/Config.lean ====
section
/-! DEFINITION. The parameters of the hardware (R2, R3): the fixed ones as constants, the open one `OPMAP` as a type that the
decoder takes an element of. The other open parameter, `IMG`, is the argument of `State.resetWith`. The spec leaves no value
of an instruction open (93_implementation_defined.md), so no free value stands here. -/

namespace Sys2Proof

/-- `MEM_SIZE`: 256 bytes, addresses 0..255 (R2). -/
abbrev Config.memSize : Nat := 256

/-- `SP_INDEX`: register 7 is the stack pointer (R2, R12). -/
abbrev Config.spIndex : RegIdx := 7

/-- `SP_RESET` (R2, R33). -/
abbrev Config.spReset : Byte := 0xF4

/-- `PC_RESET` (R2, R33). -/
abbrev Config.pcReset : PcWord := 0

/-- `OPMAP`: a map from the mnemonics to opcode bytes (R3). Which maps the spec admits is `OpMap.Valid` (R66), and its
default is `defaultOpMap` (R65), both in Decode.lean. -/
abbrev OpMap := Mnemonic → Byte

end Sys2Proof
end

