-- ==== Sys2Proof/WellFormed.lean ====
section
/-! DEFINITION. Well-formed instructions: every operand byte used as a register index is 0..7 (R63, R85). The LDI literal is
never checked (R64). -/

namespace Sys2Proof

/-- The contract "index must be 0..7" on an operand byte (R14, R63). -/
def validIndex (operand : Byte) : Bool := operand.toNat < 8

/-- No operand of the instruction raises `RegisterIndexOutOfRange` (R85). -/
def Instr.wf : Instr → Bool
  | .nop => true
  | .hlt => true
  | .ret => true
  | .push a => validIndex a
  | .pop a => validIndex a
  | .prn a => validIndex a
  | .call a => validIndex a
  | .jmp a => validIndex a
  | .jeq a => validIndex a
  | .jne a => validIndex a
  | .inc a => validIndex a
  | .dec a => validIndex a
  | .not a => validIndex a
  | .ldi a _ => validIndex a
  | .add a b => validIndex a && validIndex b
  | .sub a b => validIndex a && validIndex b
  | .mul a b => validIndex a && validIndex b
  | .div a b => validIndex a && validIndex b
  | .mod a b => validIndex a && validIndex b
  | .cmp a b => validIndex a && validIndex b
  | .and a b => validIndex a && validIndex b
  | .or a b => validIndex a && validIndex b
  | .xor a b => validIndex a && validIndex b
  | .shl a b => validIndex a && validIndex b
  | .shr a b => validIndex a && validIndex b

end Sys2Proof
end

