-- ==== Sys2Proof/Decode.lean ====
section
/-! DEFINITION. Encoding and decoding (30_encoding.md): the formats, the opcode map, the decoder that the machine runs on the
three fetched bytes, the encoder, and a decoder of byte lists. Decoder and encoder take the parameter `OPMAP` (R3). -/

namespace Sys2Proof

/-- `v[7:6]` of an opcode byte: the operand count (R61). -/
def arityField (ir : Byte) : Nat := (ir.extractLsb 7 6).toNat

/-- The four instruction formats (R62). -/
inductive Format where
  /-- one byte: opcode -/
  | F0
  /-- two bytes: opcode, register index `a` -/
  | F1R
  /-- three bytes: opcode, register indices `a`, `b` -/
  | F2RR
  /-- three bytes: opcode, register index `a`, literal `imm` -/
  | F2RI
  deriving DecidableEq, Repr

/-- How many operand bytes a format has (R62). -/
def Format.operandCount : Format → Nat
  | .F0 => 0
  | .F1R => 1
  | .F2RR => 2
  | .F2RI => 2

/-- The format of each mnemonic (R62). -/
def Mnemonic.format : Mnemonic → Format
  | .nop | .hlt | .ret => .F0
  | .push | .pop | .prn | .call | .jmp | .jeq | .jne | .inc | .dec | .not => .F1R
  | .ldi => .F2RI
  | .add | .sub | .mul | .div | .mod | .cmp | .and | .or | .xor | .shl | .shr => .F2RR

/-- The arity of a mnemonic: its operand count (R65, R66). -/
def Mnemonic.operandCount (m : Mnemonic) : Nat := m.format.operandCount

/-- The 25 mnemonics in a list, for the dispatch lookup (R84). -/
def Mnemonic.all : List Mnemonic :=
  [.nop, .hlt, .ret, .push, .pop, .prn, .call, .jmp, .jeq, .jne, .inc, .dec, .not, .ldi,
   .add, .sub, .mul, .div, .mod, .cmp, .and, .or, .xor, .shl, .shr]

/-- What the spec requires of `OPMAP` (R66): (1) injective; (2) bits [7:6] of every opcode are the operand count. -/
def OpMap.Valid (M : OpMap) : Prop :=
  (∀ m n : Mnemonic, M m = M n → m = n) ∧ ∀ m : Mnemonic, arityField (M m) = m.operandCount

/-- The default value of `OPMAP` (R65), from the LS-8 teaching ISA: PRESUMED, log entry 2. -/
def defaultOpMap : OpMap
  | .nop => 0b00000000
  | .hlt => 0b00000001
  | .ret => 0b00010001
  | .push => 0b01000101
  | .pop => 0b01000110
  | .prn => 0b01000111
  | .call => 0b01010000
  | .jmp => 0b01010100
  | .jeq => 0b01010101
  | .jne => 0b01010110
  | .inc => 0b01100101
  | .dec => 0b01100110
  | .not => 0b01101001
  | .ldi => 0b10000010
  | .add => 0b10100000
  | .sub => 0b10100001
  | .mul => 0b10100010
  | .div => 0b10100011
  | .mod => 0b10100100
  | .cmp => 0b10100111
  | .and => 0b10101000
  | .or => 0b10101010
  | .xor => 0b10101011
  | .shl => 0b10101100
  | .shr => 0b10101101

/-- DISPATCH: the mnemonic whose opcode is `ir`, if there is one (R74 step 3, R84). -/
def lookup (M : OpMap) (ir : Byte) : Option Mnemonic := Mnemonic.all.find? (fun m => M m == ir)

/-- The instruction of a mnemonic with the two bytes fetched after the opcode. Bytes the format does not use are ignored
(R69); the second byte of LDI is its literal (R64). -/
def Mnemonic.assemble (m : Mnemonic) (opa opb : Byte) : Instr :=
  match m with
  | .nop => .nop
  | .hlt => .hlt
  | .ret => .ret
  | .push => .push opa
  | .pop => .pop opa
  | .prn => .prn opa
  | .call => .call opa
  | .jmp => .jmp opa
  | .jeq => .jeq opa
  | .jne => .jne opa
  | .inc => .inc opa
  | .dec => .dec opa
  | .not => .not opa
  | .ldi => .ldi opa opb
  | .add => .add opa opb
  | .sub => .sub opa opb
  | .mul => .mul opa opb
  | .div => .div opa opb
  | .mod => .mod opa opb
  | .cmp => .cmp opa opb
  | .and => .and opa opb
  | .or => .or opa opb
  | .xor => .xor opa opb
  | .shl => .shl opa opb
  | .shr => .shr opa opb

/-- Why bytes are no instruction. -/
inductive DecodeError where
  /-- No mnemonic has the opcode (R67, R84): the machine raises `IllegalOpcode(ir)`. -/
  | illegalOpcode (ir : Byte)
  /-- A byte list ends inside the instruction. Only `decodeBytes` on a list answers it: the machine always fetches three
  bytes (R81). -/
  | truncated
  deriving DecidableEq, Repr

/-- The machine's decoder on the three fetched bytes (R74). The register indices are checked by the instruction's own
meaning, before any effect (R85, log entry 5). -/
def decode (M : OpMap) (ir opa opb : Byte) : Except DecodeError Instr :=
  match lookup M ir with
  | none => .error (.illegalOpcode ir)
  | some m => .ok (m.assemble opa opb)

/-- The mnemonic of an instruction. -/
def Instr.mnemonic : Instr → Mnemonic
  | .nop => .nop
  | .hlt => .hlt
  | .ret => .ret
  | .push _ => .push
  | .pop _ => .pop
  | .prn _ => .prn
  | .call _ => .call
  | .jmp _ => .jmp
  | .jeq _ => .jeq
  | .jne _ => .jne
  | .inc _ => .inc
  | .dec _ => .dec
  | .not _ => .not
  | .ldi _ _ => .ldi
  | .add _ _ => .add
  | .sub _ _ => .sub
  | .mul _ _ => .mul
  | .div _ _ => .div
  | .mod _ _ => .mod
  | .cmp _ _ => .cmp
  | .and _ _ => .and
  | .or _ _ => .or
  | .xor _ _ => .xor
  | .shl _ _ => .shl
  | .shr _ _ => .shr

/-- The operand bytes of an instruction in the order they stand in memory (R62). -/
def Instr.operands : Instr → List Byte
  | .nop => []
  | .hlt => []
  | .ret => []
  | .push a => [a]
  | .pop a => [a]
  | .prn a => [a]
  | .call a => [a]
  | .jmp a => [a]
  | .jeq a => [a]
  | .jne a => [a]
  | .inc a => [a]
  | .dec a => [a]
  | .not a => [a]
  | .ldi a imm => [a, imm]
  | .add a b => [a, b]
  | .sub a b => [a, b]
  | .mul a b => [a, b]
  | .div a b => [a, b]
  | .mod a b => [a, b]
  | .cmp a b => [a, b]
  | .and a b => [a, b]
  | .or a b => [a, b]
  | .xor a b => [a, b]
  | .shl a b => [a, b]
  | .shr a b => [a, b]

/-- The operand bytes that the format uses as register indices, in the order they are checked (R85). -/
def Instr.indexOperands (i : Instr) : List Byte :=
  match i.mnemonic.format with
  | .F0 => []
  | .F1R => i.operands
  | .F2RR => i.operands
  | .F2RI => i.operands.take 1

/-- Length in bytes: operand count plus one (R60, R70). -/
def Instr.length (i : Instr) : Nat := i.mnemonic.operandCount + 1

/-- The bytes of an instruction: opcode, then operands, at increasing addresses (R60, R62). -/
def encode (M : OpMap) (i : Instr) : List Byte := M i.mnemonic :: i.operands

/-- Decode the instruction at the head of a byte list, and answer it with the bytes after it. -/
def decodeBytes (M : OpMap) : List Byte → Except DecodeError (Instr × List Byte)
  | [] => .error .truncated
  | ir :: rest =>
    match decode M ir (rest.getD 0 0) (rest.getD 1 0) with
    | .error e => .error e
    | .ok i =>
      if rest.length < i.mnemonic.operandCount then .error .truncated
      else .ok (i, rest.drop i.mnemonic.operandCount)

/-- The mnemonic as the spec writes it: upper case (R71). -/
def Mnemonic.name : Mnemonic → String
  | .nop => "NOP"
  | .hlt => "HLT"
  | .ret => "RET"
  | .push => "PUSH"
  | .pop => "POP"
  | .prn => "PRN"
  | .call => "CALL"
  | .jmp => "JMP"
  | .jeq => "JEQ"
  | .jne => "JNE"
  | .inc => "INC"
  | .dec => "DEC"
  | .not => "NOT"
  | .ldi => "LDI"
  | .add => "ADD"
  | .sub => "SUB"
  | .mul => "MUL"
  | .div => "DIV"
  | .mod => "MOD"
  | .cmp => "CMP"
  | .and => "AND"
  | .or => "OR"
  | .xor => "XOR"
  | .shl => "SHL"
  | .shr => "SHR"

/-- An instruction in the spec's notation `MNEMONIC a b`: decimal operands separated by spaces (R71). -/
def Instr.assembly (i : Instr) : String :=
  String.intercalate " " (i.mnemonic.name :: i.operands.map fun operand => toString operand.toNat)

/-- Byte `k` of an instruction whose bits are the low `nbits` bits of `w`, bit 0 the least significant bit of the first
byte. The bits above `nbits` are zero. -/
def tableByte (nbits w k : Nat) : Byte := BitVec.ofNat 8 (w % 2 ^ nbits / 2 ^ (8 * k))

/-- The instruction the machine's decoder reads from an opcode-table word (first byte in the low bits). -/
def decodeTableWord (nbits w : Nat) : Option Instr :=
  match decode defaultOpMap (tableByte nbits w 0) (tableByte nbits w 1) (tableByte nbits w 2) with
  | .ok i => some i
  | .error _ => none

end Sys2Proof
end

