-- ==== Sys2Proof/Machine/State.lean ====
section
/-! DEFINITION. The architectural state (R10), its reset value (R33), and the reasons a step can stop. -/

namespace Sys2Proof.Machine

/-- The eight general registers (R11). `x7` is the stack pointer (R12). -/
structure Regs where
  x0 : Byte
  x1 : Byte
  x2 : Byte
  x3 : Byte
  x4 : Byte
  x5 : Byte
  x6 : Byte
  x7 : Byte
  deriving DecidableEq, Repr

/-- The three flags (R17): three separate bits with no packed form. -/
structure Flags where
  /-- equal -/
  E : Bool
  /-- greater -/
  G : Bool
  /-- less -/
  L : Bool
  deriving DecidableEq, Repr

/-- The four fatal conditions with the `info` each records (R200). -/
inductive Cause where
  /-- The opcode byte of no mnemonic (R201). -/
  | illegalOpcode (ir : Byte)
  /-- DIV or MOD by zero, no `info` (R202). -/
  | divideByZero
  /-- An address outside 0..255, as an integer (R203). -/
  | outOfRangeAddress (addr : Int)
  /-- An operand byte used as a register index is above 7 (R204). -/
  | registerIndexOutOfRange (operand : Byte)
  deriving DecidableEq, Repr

/-- The run state (R19). -/
inductive RunState where
  /-- The machine executes steps. -/
  | running
  /-- A HLT has executed. -/
  | halted
  /-- `FAULTED(cause, info)`. -/
  | faulted (cause : Cause)
  deriving DecidableEq, Repr

/-- Memory (R40): the bytes that differ from what an unlisted address reads as, addresses strictly rising
(`Memory.wf`). -/
abbrev Memory := List Host.Cell

/-- The whole architectural state: "there is no other state" (R10). -/
structure State where
  /-- x[0]..x[7] (R11) -/
  regs : Regs
  /-- the address of the instruction being executed (R15) -/
  pc : PcWord
  /-- FL (R17) -/
  flags : Flags
  /-- mem[0]..mem[255] (R40) -/
  mem : Memory
  /-- the run state (R19) -/
  run : RunState
  /-- the output sequence, first element printed first (R20) -/
  out : List Byte
  deriving DecidableEq, Repr

/-- Why the machine has no step. Both are the spec's own: "In `HALTED` and `FAULTED` the machine has no step" (R19, R89).
The four fatal conditions are NOT here: raising one is a next state with `run = FAULTED` (R206, log entry 1). -/
inductive Fault where
  /-- Raised by the step of a machine whose run state is HALTED. Safe: nothing is claimed of a step that does not exist. -/
  | halted
  /-- Raised by the step of a machine whose run state is FAULTED. Safe, as `halted`. -/
  | faulted (cause : Cause)
  deriving DecidableEq, Repr

/-- Why an instruction has no meaning. -/
inductive Refusal where
  /-- Raised by an arm of `exec` whose instruction has no meaning yet. Safe. No arm of this model raises it. -/
  | notModelled (mnemonic : String)
  deriving DecidableEq, Repr

/-- The outcome of a step or of an instruction. -/
abbrev Result := Host.Outcome State Fault Refusal

/-- The registers after reset (R33): 0 in x[0]..x[6] and 0xF4 in x[7]. -/
def Regs.reset : Regs := ⟨0, 0, 0, 0, 0, 0, 0, Config.spReset⟩

/-- The flags after reset: all false (R33). -/
def Flags.reset : Flags := ⟨false, false, false⟩

/-- The reset state with the memory image `img`, the parameter `IMG` (R33, R232). -/
def State.resetWith (img : Memory) : State :=
  { regs := Regs.reset, pc := Config.pcReset, flags := Flags.reset, mem := img, run := .running, out := [] }

/-- The machine right after reset, with the image of the empty program (R33, R232). -/
def State.reset : State := State.resetWith []

end Sys2Proof.Machine
end

