-- ==== Sys2Proof/Machine/Memory.lean ====
section
/-! DEFINITION. The memory array (20_memory.md) as a canonical list of cells: reading, writing, the canonical form, and the
image a program makes (R232). -/

namespace Sys2Proof.Machine

/-- What an address that is not listed reads as: 0, "0 in every byte the loader did not write" (R33, R232; log entry 3). -/
def Memory.unlisted : Byte := 0

/-- The byte at an address. -/
def Memory.read : Memory → Nat → Byte
  | [], _ => Memory.unlisted
  | (b, w) :: rest, a => if a = b then w else Memory.read rest a

/-- Put a cell in front of a memory, or leave it out where it says what an unlisted address says anyway. -/
def Memory.cons (a : Nat) (v : Byte) (m : Memory) : Memory := if v = Memory.unlisted then m else (a, v) :: m

/-- Write one byte, keeping the canonical form. -/
def Memory.write : Memory → Nat → Byte → Memory
  | [], a, v => Memory.cons a v []
  | (b, w) :: rest, a, v =>
    if a < b then Memory.cons a v ((b, w) :: rest)
    else if a = b then Memory.cons a v rest
    else (b, w) :: Memory.write rest a v

/-- The canonical form from address `lo` on: addresses at least `lo`, strictly rising, inside the address space, and no
cell that equals what an unlisted address reads as. -/
def Memory.wfFrom : Nat → Memory → Bool
  | _, [] => true
  | lo, (a, v) :: rest =>
    decide (lo ≤ a) && decide (a < Config.memSize) && decide (v ≠ Memory.unlisted) && Memory.wfFrom (a + 1) rest

/-- The canonical form. -/
def Memory.wf (m : Memory) : Bool := Memory.wfFrom 0 m

/-- The bytes of a program written from an address upward, in order, with no gaps (R48, R232). -/
def Memory.place : List Byte → Nat → Memory
  | [], _ => []
  | v :: rest, a => Memory.cons a v (Memory.place rest (a + 1))

/-- `IMG` of a program: its bytes from address 0, and 0 above (R232). "A program of more than 256 bytes has no image". -/
def Memory.ofImage (program : List Byte) : Option Memory :=
  if program.length ≤ Config.memSize then some (Memory.place program 0) else none

end Sys2Proof.Machine
end

