-- ==== Sys2Proof/Machine/Ops.lean ====
section
/-! DEFINITION. The operations every rule is written in (00_scope.md section 6): registers, program counter, the two memory
primitives, the stack, raising a fatal condition and leaving it by reset, and what the host sees. -/

namespace Sys2Proof.Machine

/-! ## Widths -/

/-- `trunc8(v) = v mod 256` (00_scope.md section 6). -/
def trunc8 (v : Int) : Byte := BitVec.ofInt 8 v

/-- `zext_9(v)` (00_scope.md section 6). -/
def zext9 (v : Byte) : PcWord := v.setWidth 9

/-! ## Registers -/

/-- Read `x[i]` from the register file (R13, R28). -/
def Regs.get (r : Regs) : RegIdx → Byte
  | 0 => r.x0
  | 1 => r.x1
  | 2 => r.x2
  | 3 => r.x3
  | 4 => r.x4
  | 5 => r.x5
  | 6 => r.x6
  | 7 => r.x7

/-- Write `x[i]` in the register file (R13, R28). -/
def Regs.set (r : Regs) (i : RegIdx) (v : Byte) : Regs :=
  match i with
  | 0 => { r with x0 := v }
  | 1 => { r with x1 := v }
  | 2 => { r with x2 := v }
  | 3 => { r with x3 := v }
  | 4 => { r with x4 := v }
  | 5 => { r with x5 := v }
  | 6 => { r with x6 := v }
  | 7 => { r with x7 := v }

/-- `x[i]` (R13). -/
def State.reg (s : State) (i : RegIdx) : Byte := s.regs.get i

/-- `x[i] <- v`, which stores `v mod 256` (R13). -/
def State.setReg (s : State) (i : RegIdx) (v : Int) : State := { s with regs := s.regs.set i (trunc8 v) }

/-- `sp`, an alias of `x[7]` (R12). -/
def State.sp (s : State) : Byte := s.reg Config.spIndex

/-! ## Program counter -/

/-- ADVANCE: `pc <- pc + n + 1` for an instruction of `n` operand bytes (R87). The 9 bits hold every sum a step can make
(log entry 7). -/
def State.advance (s : State) (n : Nat) : State := { s with pc := s.pc + BitVec.ofNat 9 (n + 1) }

/-- `pc <- zext_9(target)`: a control-flow instruction sets the final value (R88, R144). -/
def State.jump (s : State) (target : Byte) : State := { s with pc := zext9 target }

/-! ## Fatal conditions -/

/-- `raise`: `run <- FAULTED(cause, info)` and nothing else changes (R206, R90). There is no handler and no saved register
(R207, R210), and no return from it (R211) but reset: `applyReset`. -/
def raise (c : Cause) (s : State) : State := { s with run := .faulted c }

/-- The outcome of an effect that may raise. A raise abandons the instruction, so it applies to the state BEFORE the effect
(R86, R90). -/
def perform (s : State) (effect : Except Cause State) : Result :=
  match effect with
  | .ok t => .next t
  | .error c => .next (raise c s)

/-- The reset input (R230): every component but memory takes its reset value, whatever the state was (R231, R232). The only
way out of `HALTED` and `FAULTED` (R89). -/
def applyReset (s : State) : State := State.resetWith s.mem

/-- The host writes `IMG` while the core is in reset, and reset is released (R232, R233). `none`: the program has no
image. -/
def loadProgram (program : List Byte) : Option State := (Memory.ofImage program).map State.resetWith

/-- The code of a cause (R200, R205). -/
def Cause.code : Cause → Nat
  | .illegalOpcode _ => 1
  | .divideByZero => 2
  | .outOfRangeAddress _ => 3
  | .registerIndexOutOfRange _ => 4

/-- The fault code of a run state: 0 is no fault (R205). -/
def RunState.faultCode : RunState → Nat
  | .running => 0
  | .halted => 0
  | .faulted c => c.code

/-- What the host reports of a run (R219). -/
inductive ExitStatus where
  | success
  | failure
  deriving DecidableEq, Repr

/-- HALTED is success, FAULTED is failure, and a run that has not ended has no status (R219, R240). -/
def exitStatus : RunState → Option ExitStatus
  | .running => none
  | .halted => some .success
  | .faulted _ => some .failure

/-- The host's default rendering of the output: one line for each PRN, in order, the value in unsigned decimal (R20,
R102). -/
def printedLines (out : List Byte) : List String := out.map fun v => toString v.toNat

/-! ## Memory access -/

/-- `MemRead(addr, 1)` (R42, R44). -/
def memRead (s : State) (addr : Int) : Except Cause Byte :=
  if 0 ≤ addr ∧ addr < Config.memSize then .ok (s.mem.read addr.toNat) else .error (.outOfRangeAddress addr)

/-- `MemWrite(addr, 1, v)`, which stores `trunc8(v)` (R43, R44). -/
def memWrite (s : State) (addr v : Int) : Except Cause State :=
  if 0 ≤ addr ∧ addr < Config.memSize then .ok { s with mem := s.mem.write addr.toNat (trunc8 v) }
  else .error (.outOfRangeAddress addr)

/-- FETCH: the bytes at `pc`, `pc + 1`, `pc + 2`, read in that order at unwrapped addresses, all three on every step (R81,
R82). -/
def fetch (s : State) : Except Cause (Byte × Byte × Byte) := do
  let ir ← memRead s s.pc.toNat
  let opa ← memRead s (s.pc.toNat + 1)
  let opb ← memRead s (s.pc.toNat + 2)
  return (ir, opa, opb)

/-! ## Stack -/

/-- The address `sp`: the most recently pushed byte (R113). -/
def stackTop (s : State) : Int := s.sp.toNat

/-- `sp <- sp - 1`, raising `OutOfRangeAddress(-1)` at `sp = 0` (R111, R150). -/
def decSp (s : State) : Except Cause State :=
  if stackTop s - 1 < 0 then .error (.outOfRangeAddress (stackTop s - 1))
  else .ok (s.setReg Config.spIndex (stackTop s - 1))

/-- The value `p + 1` for the stack pointer, raising `OutOfRangeAddress(256)` at `p = 255` (R112, R151). -/
def popPointer (p : Byte) : Except Cause Int :=
  if (p.toNat : Int) + 1 ≥ Config.memSize then .error (.outOfRangeAddress (p.toNat + 1)) else .ok (p.toNat + 1)

end Sys2Proof.Machine
end

