-- ==== Sys2Proof/Machine/Alu.lean ====
section
/-! DEFINITION. The ALU (R29): each function's exact integer result, which the register write reduces modulo 256 (R13, R127).
Nothing here reads or writes a flag (R128). -/

namespace Sys2Proof.Machine

/-- ADD (R120). -/
def aluAdd (p q : Byte) : Int := p.toNat + q.toNat

/-- SUB (R121). -/
def aluSub (p q : Byte) : Int := p.toNat - q.toNat

/-- MUL (R122). -/
def aluMul (p q : Byte) : Int := p.toNat * q.toNat

/-- DIV: the unsigned integer quotient, or `DivideByZero` (R123, R202). -/
def aluDiv (p q : Byte) : Except Cause Int :=
  if q.toNat = 0 then .error .divideByZero else .ok ((p.toNat / q.toNat : Nat) : Int)

/-- MOD: `x[a] - x[b] * floor(x[a] / x[b])`, or `DivideByZero` (R124, R202). -/
def aluMod (p q : Byte) : Except Cause Int :=
  if q.toNat = 0 then .error .divideByZero else .ok (p.toNat - q.toNat * (p.toNat / q.toNat : Nat))

/-- INC (R125). -/
def aluInc (p : Byte) : Int := p.toNat + 1

/-- DEC (R126). -/
def aluDec (p : Byte) : Int := p.toNat - 1

/-- AND (R130). -/
def aluAnd (p q : Byte) : Int := ((p.toNat &&& q.toNat : Nat) : Int)

/-- OR (R131). -/
def aluOr (p q : Byte) : Int := ((p.toNat ||| q.toNat : Nat) : Int)

/-- XOR (R132). -/
def aluXor (p q : Byte) : Int := ((p.toNat ^^^ q.toNat : Nat) : Int)

/-- NOT: `255 - x[a]` (R133). -/
def aluNot (p : Byte) : Int := 255 - p.toNat

/-- SHL: `x[a] * 2^x[b]`, the whole of `x[b]` (R134, R136). -/
def aluShl (p q : Byte) : Int := ((p.toNat * 2 ^ q.toNat : Nat) : Int)

/-- SHR: `floor(x[a] / 2^x[b])`, logical (R135, R136). -/
def aluShr (p q : Byte) : Int := ((p.toNat / 2 ^ q.toNat : Nat) : Int)

end Sys2Proof.Machine
end

