-- ==== Sys2Proof/Machine/Operands.lean ====
section
/-! DEFINITION. Operand validation (R85) and the shapes that instructions share: one or two register operands, a result
written to `x[a]`, the generic advance. -/

namespace Sys2Proof.Machine

/-- The operand byte that selects register `i` (R63). -/
def regByte (i : RegIdx) : Byte := BitVec.ofNat 8 i.val

/-- A register-index operand: the whole byte, valid when 0..7, else `RegisterIndexOutOfRange(byte)` (R63, R85). -/
def regIndex (operand : Byte) : Except Cause RegIdx :=
  if h : operand.toNat < 8 then .ok ⟨operand.toNat, h⟩ else .error (.registerIndexOutOfRange operand)

/-- Format F1R with a result in `x[a]`: `x[a] <- f(x[a])`, then `pc <- pc + 2`. -/
def aluR (f : Byte → Int) (a : Byte) (s : State) : Except Cause State := do
  let i ← regIndex a
  return (s.setReg i (f (s.reg i))).advance 1

/-- Format F2RR with a result in `x[a]`: `x[a] <- f(x[a], x[b])`, then `pc <- pc + 3`. `a` is checked before `b` (R85), and
both before `f` raises (R209). -/
def aluRR (f : Byte → Byte → Except Cause Int) (a b : Byte) (s : State) : Except Cause State := do
  let i ← regIndex a
  let j ← regIndex b
  let v ← f (s.reg i) (s.reg j)
  return (s.setReg i v).advance 2

end Sys2Proof.Machine
end

