-- ==== Sys2Proof/Machine/Arith.lean ====
section
/-! DEFINITION. The arithmetic instructions ADD, SUB, MUL, DIV, MOD, INC, DEC (43_arith.md). -/

namespace Sys2Proof.Machine

/-- ADD (R120). -/
def execAdd (a b : Byte) (s : State) : Result := perform s (aluRR (fun p q => .ok (aluAdd p q)) a b s)

/-- SUB (R121). -/
def execSub (a b : Byte) (s : State) : Result := perform s (aluRR (fun p q => .ok (aluSub p q)) a b s)

/-- MUL (R122). -/
def execMul (a b : Byte) (s : State) : Result := perform s (aluRR (fun p q => .ok (aluMul p q)) a b s)

/-- DIV (R123). -/
def execDiv (a b : Byte) (s : State) : Result := perform s (aluRR aluDiv a b s)

/-- MOD (R124). -/
def execMod (a b : Byte) (s : State) : Result := perform s (aluRR aluMod a b s)

/-- INC (R125). -/
def execInc (a : Byte) (s : State) : Result := perform s (aluR aluInc a s)

/-- DEC (R126). -/
def execDec (a : Byte) (s : State) : Result := perform s (aluR aluDec a s)

end Sys2Proof.Machine
end

