-- ==== Sys2Proof/Machine/CallReturn.lean ====
section
/-! DEFINITION. Subroutines: CALL, RET (46_call_return.md). -/

namespace Sys2Proof.Machine

/-- CALL: push `pc + 2`, then jump to `x[a]`, read AFTER the stack pointer has moved (R150). -/
def execCall (a : Byte) (s : State) : Result :=
  perform s do
    let i ← regIndex a
    let s₁ ← decSp s
    let s₂ ← memWrite s₁ (stackTop s₁) (s.pc.toNat + 2)
    return s₂.jump (s₂.reg i)

/-- RET: `pc` becomes the byte popped from the stack (R151). -/
def execRet (s : State) : Result :=
  perform s do
    let p ← popPointer s.sp
    let t ← memRead s (stackTop s)
    return (s.setReg Config.spIndex p).jump t

end Sys2Proof.Machine
end

