-- ==== Sys2Proof/Machine/Flags.lean ====
section
/-! DEFINITION. The flags: the comparator, their one writer, and their readers (R17, R18, R31, R140). -/

namespace Sys2Proof.Machine

/-- The comparator: unsigned ordering of two register values (R140). -/
def compareFlags (p q : Byte) : Flags :=
  { E := decide (p.toNat = q.toNat), G := decide (p.toNat > q.toNat), L := decide (p.toNat < q.toNat) }

/-- `FL <- (e, g, l)`: all three at once (R31). -/
def State.setFlags (s : State) (f : Flags) : State := { s with flags := f }

/-- `is_equal()`, read by JEQ and JNE (R31). -/
def Flags.isEqual (f : Flags) : Bool := f.E

/-- `is_greater()`: no instruction reads it (R18, R31). -/
def Flags.isGreater (f : Flags) : Bool := f.G

/-- `is_less()`: no instruction reads it (R18, R31). -/
def Flags.isLess (f : Flags) : Bool := f.L

end Sys2Proof.Machine
end

