-- ==== Sys2Proof/Machine/CompareJump.lean ====
section
/-! DEFINITION. Compare and jumps: CMP, JMP, JEQ, JNE (45_compare_jump.md). -/

namespace Sys2Proof.Machine

/-- CMP: all three flags from the comparator (R140). -/
def execCmp (a b : Byte) (s : State) : Result :=
  perform s do
    let i ← regIndex a
    let j ← regIndex b
    return (s.setFlags (compareFlags (s.reg i) (s.reg j))).advance 2

/-- JMP: `pc <- zext_9(x[a])` (R141). -/
def execJmp (a : Byte) (s : State) : Result :=
  perform s do
    let i ← regIndex a
    return s.jump (s.reg i)

/-- JEQ: jump if `FL.E`, else `pc + 2`; the index is checked either way (R142). -/
def execJeq (a : Byte) (s : State) : Result :=
  perform s do
    let i ← regIndex a
    return if s.flags.isEqual then s.jump (s.reg i) else s.advance 1

/-- JNE: jump if not `FL.E`, else `pc + 2`; the index is checked either way (R143). -/
def execJne (a : Byte) (s : State) : Result :=
  perform s do
    let i ← regIndex a
    return if !s.flags.isEqual then s.jump (s.reg i) else s.advance 1

end Sys2Proof.Machine
end

