-- ==== Sys2Proof/Machine/DataStack.lean ====
section
/-! DEFINITION. Data movement and the stack: LDI, PUSH, POP (42_data_stack.md). -/

namespace Sys2Proof.Machine

/-- LDI: `x[a] <- imm`, the literal unsigned and never checked (R110, R64). -/
def execLdi (a imm : Byte) (s : State) : Result :=
  perform s do
    let i ← regIndex a
    return (s.setReg i imm.toNat).advance 2

/-- PUSH: decrement `sp`, then store `x[a]`, read AFTER the decrement (R111). -/
def execPush (a : Byte) (s : State) : Result :=
  perform s do
    let i ← regIndex a
    let s₁ ← decSp s
    let s₂ ← memWrite s₁ (stackTop s₁) (s₁.reg i).toNat
    return s₂.advance 1

/-- POP: `x[a] <- mem[sp]`, then `sp` becomes one more than what register 7 then holds: the popped byte if `a = 7`
(R112). -/
def execPop (a : Byte) (s : State) : Result :=
  perform s do
    let i ← regIndex a
    let v ← memRead s (stackTop s)
    let p ← popPointer (if i = Config.spIndex then v else s.sp)
    return ((s.setReg i v.toNat).setReg Config.spIndex p).advance 1

end Sys2Proof.Machine
end

