-- ==== Sys2Proof/Machine/Logic.lean ====
section
/-! DEFINITION. The bitwise and shift instructions AND, OR, XOR, NOT, SHL, SHR (44_logic_shift.md). -/

namespace Sys2Proof.Machine

/-- AND (R130). -/
def execAnd (a b : Byte) (s : State) : Result := perform s (aluRR (fun p q => .ok (aluAnd p q)) a b s)

/-- OR (R131). -/
def execOr (a b : Byte) (s : State) : Result := perform s (aluRR (fun p q => .ok (aluOr p q)) a b s)

/-- XOR (R132). -/
def execXor (a b : Byte) (s : State) : Result := perform s (aluRR (fun p q => .ok (aluXor p q)) a b s)

/-- NOT (R133). -/
def execNot (a : Byte) (s : State) : Result := perform s (aluR aluNot a s)

/-- SHL (R134, R136). -/
def execShl (a b : Byte) (s : State) : Result := perform s (aluRR (fun p q => .ok (aluShl p q)) a b s)

/-- SHR (R135, R136). -/
def execShr (a b : Byte) (s : State) : Result := perform s (aluRR (fun p q => .ok (aluShr p q)) a b s)

end Sys2Proof.Machine
end

