-- ==== Sys2Proof/Machine/System.lean ====
section
/-! DEFINITION. The system instructions HLT, NOP, PRN (41_system.md). -/

namespace Sys2Proof.Machine

/-- HLT: `run <- HALTED`, no advance (R100). -/
def execHlt (s : State) : Result := .next { s with run := .halted }

/-- NOP: only the generic advance (R101). -/
def execNop (s : State) : Result := .next (s.advance 0)

/-- PRN: `out <- out ++ [x[a]]` (R102). -/
def execPrn (a : Byte) (s : State) : Result :=
  perform s do
    let i ← regIndex a
    return State.advance { s with out := s.out ++ [s.reg i] } 1

end Sys2Proof.Machine
end

