-- ==== Sys2Proof/Machine/Cycle.lean ====
section
/-! DEFINITION. The fetch-decode-execute cycle for any opcode map (R80), and placing an instruction where it fetches. -/

namespace Sys2Proof.Machine

/-- FETCH, DECODE and DISPATCH: the instruction at `pc`, or the condition raised before EXECUTE, in the order of R209. A list
that ends inside an instruction cannot arise here, three bytes having been fetched. -/
def fetchDecode (M : OpMap) (s : State) : Except Cause Instr := do
  let (ir, opa, opb) ← fetch s
  match decode M ir opa opb with
  | .ok i => return i
  | .error _ => throw (.illegalOpcode ir)

/-- One step of the machine with the opcode map `M` (R80). It exists only when `run = RUNNING` (R89). -/
def cycle (M : OpMap) (s : State) : Result :=
  match s.run with
  | .halted => .fault .halted
  | .faulted c => .fault (.faulted c)
  | .running =>
    match fetchDecode M s with
    | .error c => .next (raise c s)
    | .ok i => exec i s

/-- Store bytes from an address upward, leaving out those whose address does not exist (log entry 8). -/
def Memory.storeBytes : Memory → Nat → List Byte → Memory
  | m, _, [] => m
  | m, a, v :: rest => Memory.storeBytes (if a < Config.memSize then m.write a v else m) (a + 1) rest

/-- The three bytes of an opcode-table word stored at `pc`, `pc + 1`, `pc + 2`. -/
def storeTableWord (s : State) (nbits w : Nat) : State :=
  { s with mem := s.mem.storeBytes s.pc.toNat [tableByte nbits w 0, tableByte nbits w 1, tableByte nbits w 2] }

end Sys2Proof.Machine
end

