-- ==== Sys2Proof/Machine/Step.lean ====
section
/-! DEFINITION. The step of the machine with the default opcode map (R80, R65), and the host's way to place an instruction. -/

namespace Sys2Proof.Machine

/-- One step of the machine (R80), with `OPMAP` at its default (R3, R65; log entry 2). -/
def step (s : State) : Host.Outcome State Fault Refusal := cycle defaultOpMap s

/-- The state with an opcode-table word stored where the next step fetches: at `pc` (R81, R15). It stands for the host's
load of memory before the run (R55, log entry 6); only memory changes. -/
def State.withFetchWord (s : State) (nbits w : Nat) : State := storeTableWord s nbits w

end Sys2Proof.Machine
end

