-- ==== Sys2Proof/Safety.lean ====
section
/-! DEFINITION. The words claims are stated in: what an instruction leaves unchanged, the invariant of the machine, and how a
run ends. -/

namespace Sys2Proof.Machine

/-- Every register outside `rs` keeps its value. -/
def SameRegsExcept (rs : List RegIdx) (s t : State) : Prop := ∀ r : RegIdx, r ∉ rs → t.reg r = s.reg r

/-- Every byte of memory reads as before. -/
def SameMemory (s t : State) : Prop := ∀ a : Nat, t.mem.read a = s.mem.read a

/-- Every byte of memory but the one at `addr` reads as before. -/
def SameMemoryExcept (addr : Int) (s t : State) : Prop := ∀ a : Nat, (a : Int) ≠ addr → t.mem.read a = s.mem.read a

/-- Flags, run state and output are unchanged. -/
def SameControl (s t : State) : Prop := t.flags = s.flags ∧ t.run = s.run ∧ t.out = s.out

/-- The frame of an instruction whose only effects are on the registers `rs` and the program counter. -/
def WritesOnlyRegs (rs : List RegIdx) (s t : State) : Prop := SameRegsExcept rs s t ∧ SameMemory s t ∧ SameControl s t

/-- A two-register instruction with opcode byte `op`: it is encoded as `op a b`, and from every state whose operands meet
`ok` it answers a next state in which `x[a]` is a value that `res` allows, `pc` has advanced by 3, and nothing else
changed. -/
def ComputesRR (op : Byte) (mk : Byte → Byte → Instr) (ok : Byte → Byte → Prop) (res : Byte → Byte → Byte → Prop) : Prop :=
  (∀ a b : Byte, encode defaultOpMap (mk a b) = [op, a, b]) ∧
  ∀ (i j : RegIdx) (s : State), ok (s.reg i) (s.reg j) →
    ∃ t : State, exec (mk (regByte i) (regByte j)) s = .next t ∧
      res (s.reg i) (s.reg j) (t.reg i) ∧ t.pc = s.pc + 3 ∧ WritesOnlyRegs [i] s t

/-- A one-register instruction with opcode byte `op` whose new `x[a]` is a value that `res` allows; `pc` advances by 2. -/
def ComputesR (op : Byte) (mk : Byte → Instr) (res : Byte → Byte → Prop) : Prop :=
  (∀ a : Byte, encode defaultOpMap (mk a) = [op, a]) ∧
  ∀ (i : RegIdx) (s : State),
    ∃ t : State, exec (mk (regByte i)) s = .next t ∧
      res (s.reg i) (t.reg i) ∧ t.pc = s.pc + 2 ∧ WritesOnlyRegs [i] s t

/-- A jump with opcode byte `op`: from every state it answers a next state in which only `pc` has changed, to the value of
the operand register where `taken` holds of `FL.E`, and to `pc + 2` otherwise; an operand above 7 raises either way. -/
def JumpsWhen (op : Byte) (mk : Byte → Instr) (taken : Bool → Prop) : Prop :=
  (∀ a : Byte, encode defaultOpMap (mk a) = [op, a]) ∧
  (∀ (i : RegIdx) (s : State),
    ∃ t : State, exec (mk (regByte i)) s = .next t ∧
      (taken s.flags.E → t.pc.toNat = (s.reg i).toNat) ∧ (¬ taken s.flags.E → t.pc = s.pc + 2) ∧
      WritesOnlyRegs [] s t) ∧
  ∀ (a : Byte) (s : State), 7 < a.toNat →
    exec (mk a) s = .next { s with run := .faulted (.registerIndexOutOfRange a) }

/-- At most one flag is true: the four values the flags can take (R17). -/
def Flags.atMostOne (f : Flags) : Prop := ¬ (f.E ∧ f.G) ∧ ¬ (f.E ∧ f.L) ∧ ¬ (f.G ∧ f.L)

/-- The `info` a cause can carry (R200, R203, R204). -/
def Cause.possible (M : OpMap) : Cause → Prop
  | .illegalOpcode ir => ∀ m : Mnemonic, M m ≠ ir
  | .divideByZero => True
  | .outOfRangeAddress addr => addr = 256 ∨ addr = -1
  | .registerIndexOutOfRange operand => 7 < operand.toNat

/-- A run state the machine can be in. -/
def RunState.possible (M : OpMap) : RunState → Prop
  | .running => True
  | .halted => True
  | .faulted c => c.possible M

/-- The invariant of the machine with the opcode map `M`: `pc` is 0..256 (R15), memory is in canonical form inside the
address space (R40), at most one flag is true (R17), and a recorded cause is one the spec lists (R200). -/
def State.Inv (M : OpMap) (s : State) : Prop :=
  s.pc.toNat ≤ 256 ∧ s.mem.wf = true ∧ s.flags.atMostOne ∧ s.run.possible M

/-- The three bytes at `pc` (R81), for a `pc` at which all three exist. -/
def FetchedBytes (s : State) (ir opa opb : Byte) : Prop :=
  s.pc.toNat ≤ 253 ∧ s.mem.read s.pc.toNat = ir ∧ s.mem.read (s.pc.toNat + 1) = opa ∧ s.mem.read (s.pc.toNat + 2) = opb

end Sys2Proof.Machine
end

