-- ==== Sys2Proof/Certificates/Slice0/Obligations.lean ====
section
/-! DEFINITION. The statements for the provers. Each docstring names the rule or the section of spec/ it formalises; where a
statement rests on a decision the spec marks as its own (D1 to D25 of 92_eei_decisions.md), the docstring says so. Every opcode
byte written in a statement is the default of the parameter `OPMAP`, decision D2 (log entry 2). -/

open Sys2Proof Sys2Proof.Machine

/-! ## Reset and loading -/

/-- 10_state.md section 8 (R33), 00_scope.md R2: every component after reset. The spec's own decisions: `run` (D15) and the
zero fill of memory (D13, log entry 3). -/
def Obligations.ResetStateHasTheSpecValues : Prop :=
  (∀ i : RegIdx, i ≠ 7 → State.reset.reg i = 0) ∧ State.reset.sp = 0xF4 ∧ State.reset.pc = 0 ∧
  State.reset.flags = ⟨false, false, false⟩ ∧ State.reset.run = .running ∧ State.reset.out = [] ∧
  ∀ a : Nat, State.reset.mem.read a = 0

/-- 70_reset_and_hazards.md section 1 (R230, R231, decision D19, log entry 9): the reset input sets every component but
memory, whatever the state was. -/
def Obligations.ResetInputSetsEverythingButMemory : Prop :=
  ∀ s : State, (applyReset s).mem = s.mem ∧ { applyReset s with mem := [] } = State.reset

/-- 70_reset_and_hazards.md section 1 (R232, decision D13, log entry 3): a program of at most 256 bytes is loaded from
address 0 with zeros above it, and starts from the reset state; a longer one has no image. -/
def Obligations.LoadedProgramIsTheZeroFilledImage : Prop :=
  ∀ program : List Byte,
    (program.length ≤ 256 → ∃ s : State, loadProgram program = some s ∧ (∀ k : Nat, s.mem.read k = program.getD k 0) ∧
      s.mem.wf = true ∧ { s with mem := [] } = State.reset) ∧
    (256 < program.length → loadProgram program = none)

/-! ## The invariant -/

/-- The reset state meets the invariant. -/
def Obligations.ResetMeetsTheInvariant : Prop := State.reset.Inv defaultOpMap

/-- 10_state.md (R15, R17), 20_memory.md (R40), 60_exceptions.md (R200): from EVERY state that meets it, a step keeps the
invariant: `pc` stays in 0..256, memory stays canonical, at most one flag is true, a recorded cause is a possible one. The
spec's decisions (log entry 4): the bound of `pc` is D3 with D4; the recorded addresses are 256 of a fetch (D4) and -1 and 256
of the stack (D7), the recorded operand is above 7 (D6), and the recorded values are in `run` (D15, D16). -/
def Obligations.StepKeepsTheInvariant : Prop :=
  ∀ s t : State, s.Inv defaultOpMap → step s = .next t → t.Inv defaultOpMap

/-- 10_state.md (R15, R17), 20_memory.md (R40), 60_exceptions.md (R200), 70_reset_and_hazards.md (R232, R233): along every run
of every loaded program, of any number of steps, the invariant holds. It follows from `StepKeepsTheInvariant`, and rests on the
same decisions of the spec (log entry 4: D3, D4, D6, D7, D15, D16) and on the load (D13, log entries 3 and 6). -/
def Obligations.RunsOfLoadedProgramsKeepTheInvariant : Prop :=
  ∀ (program : List Byte) (s t : State) (k : Nat),
    loadProgram program = some s → Sys2Proof.core.run k s = .next t → t.Inv defaultOpMap

/-! ## Encoding -/

/-- 30_encoding.md R66, the constraints on `OPMAP`: the default meets them, and no opcode of a valid map has bits [7:6] = 11. -/
def Obligations.DefaultOpMapIsValid : Prop :=
  defaultOpMap.Valid ∧ ∀ M : OpMap, M.Valid → ∀ m : Mnemonic, arityField (M m) ≠ 3

/-- 30_encoding.md section 3 (R65, default opcodes D2, log entry 2): the opcode byte of each of the 25 mnemonics, in the order
of `Mnemonic.all`. -/
def Obligations.DefaultOpcodesAreTheTable : Prop :=
  Mnemonic.all.map defaultOpMap =
    [0x00, 0x01, 0x11, 0x45, 0x46, 0x47, 0x50, 0x54, 0x55, 0x56, 0x65, 0x66, 0x69, 0x82,
     0xA0, 0xA1, 0xA2, 0xA3, 0xA4, 0xA7, 0xA8, 0xAA, 0xAB, 0xAC, 0xAD] ∧
  Mnemonic.all.length = 25 ∧ ∀ m : Mnemonic, m ∈ Mnemonic.all

/-- 30_encoding.md (R62, R74): under every valid opcode map, decoding the bytes of an instruction gives it back with the
bytes after it, and so does the machine's decoder on three fetched bytes that begin with them. -/
def Obligations.DecodeOfEncodeIsTheInstruction : Prop :=
  ∀ M : OpMap, M.Valid → ∀ i : Instr,
    (∀ rest : List Byte, decodeBytes M (encode M i ++ rest) = .ok (i, rest)) ∧
    ∀ ir opa opb : Byte, encode M i <+: [ir, opa, opb] → decode M ir opa opb = .ok i

/-- 30_encoding.md (R60, R61), 40_fetch_decode_execute.md (R83): what the machine decodes is encoded as the first
`ir[7:6] + 1` fetched bytes, and `ir[7:6]` is its operand count. -/
def Obligations.DecodedBytesEncodeBack : Prop :=
  ∀ M : OpMap, M.Valid → ∀ (ir opa opb : Byte) (i : Instr), decode M ir opa opb = .ok i →
    encode M i = [ir, opa, opb].take (arityField ir + 1) ∧ i.mnemonic.operandCount = arityField ir

/-- 30_encoding.md section 4 (R67): under every valid opcode map 231 of the 256 byte values are illegal opcodes. -/
def Obligations.IllegalOpcodesNumber231 : Prop :=
  ∀ M : OpMap, M.Valid → ((List.range 256).filter fun n => (lookup M (BitVec.ofNat 8 n)).isNone).length = 231

/-- 30_encoding.md section 2 (R69, marked derived there): bytes after the instruction do not change what is decoded. -/
def Obligations.BytesOutsideTheInstructionAreIgnored : Prop :=
  ∀ M : OpMap, M.Valid → ∀ ir a b a' b' : Byte,
    (arityField ir = 0 → decode M ir a b = decode M ir a' b') ∧ (arityField ir = 1 → decode M ir a b = decode M ir a b')

/-- 30_encoding.md (R65, default opcodes D2, log entry 2): words written out from the encodings, one for each family. -/
def Obligations.HandWrittenWordsDecode : Prop :=
  decode defaultOpMap 0b01000111 0b00000011 0b11111111 = .ok (.prn 3) ∧
  decode defaultOpMap 0b10000010 0b00000111 0b10000000 = .ok (.ldi 7 0x80) ∧
  decode defaultOpMap 0b10100001 0b00000001 0b00000010 = .ok (.sub 1 2) ∧
  decode defaultOpMap 0b10101101 0b00000100 0b00000101 = .ok (.shr 4 5) ∧
  decode defaultOpMap 0b01010110 0b00000010 0b00000000 = .ok (.jne 2) ∧
  decode defaultOpMap 0b00010001 0b11111111 0b11111111 = .ok .ret ∧
  decodeTableWord 24 0x0605A2 = some (.mul 5 6) ∧ decodeTableWord 16 0x0145 = some (.push 1)

/-! ## The step -/

/-- 40_fetch_decode_execute.md (R80): a step of a running machine executes the instruction its three fetched bytes decode
to, and adds nothing around it (the advance is part of the instruction's meaning); so it is for `step` and for the cycle
with any opcode map. -/
def Obligations.StepRunsTheDecodedInstruction : Prop :=
  (∀ (s : State) (ir opa opb : Byte) (i : Instr), s.run = .running → FetchedBytes s ir opa opb →
    decode defaultOpMap ir opa opb = .ok i → step s = exec i s) ∧
  ∀ (M : OpMap) (s : State) (ir opa opb : Byte) (i : Instr), s.run = .running → FetchedBytes s ir opa opb →
    decode M ir opa opb = .ok i → cycle M s = exec i s

/-- 93_implementation_defined.md U15, 40_fetch_decode_execute.md (R89): "the machine always has a step while `RUNNING`".
That a fault is a next state with `run` FAULTED is decision D15 (log entries 1 and 4). -/
def Obligations.RunningMachineAlwaysSteps : Prop :=
  ∀ s : State, s.run = .running → ∃ t : State, step s = .next t

/-- 40_fetch_decode_execute.md (R82, decision D4): with `pc` 254, 255 or 256 the fetch raises `OutOfRangeAddress(256)`,
whatever memory holds, and nothing else changes (the spec's decision D12, log entry 4). -/
def Obligations.FetchAbove253Raises : Prop :=
  ∀ s : State, s.run = .running → 254 ≤ s.pc.toNat → s.pc.toNat ≤ 256 →
    step s = .next { s with run := .faulted (.outOfRangeAddress 256) }

/-- 40_fetch_decode_execute.md R84: an opcode byte of no mnemonic raises `IllegalOpcode(ir)` and nothing else changes; so it
is for `step` and for the cycle with any opcode map. -/
def Obligations.UnboundOpcodeRaisesIllegalOpcode : Prop :=
  (∀ (s : State) (ir opa opb : Byte), s.run = .running → FetchedBytes s ir opa opb → (∀ m : Mnemonic, defaultOpMap m ≠ ir) →
    step s = .next { s with run := .faulted (.illegalOpcode ir) }) ∧
  ∀ (M : OpMap) (s : State) (ir opa opb : Byte), s.run = .running → FetchedBytes s ir opa opb → (∀ m : Mnemonic, M m ≠ ir) →
    cycle M s = .next { s with run := .faulted (.illegalOpcode ir) }

/-- 40_fetch_decode_execute.md (R85, decision D6): the first operand byte above 7 that the format uses as a register index
raises `RegisterIndexOutOfRange`, before every other effect and fault of the instruction, and nothing else changes (decision
D12, log entry 4). -/
def Obligations.InvalidRegisterIndexRaisesFirst : Prop :=
  ∀ (i : Instr) (s : State) (b : Byte), i.indexOperands.find? (fun x => !validIndex x) = some b →
    exec i s = .next { s with run := .faulted (.registerIndexOutOfRange b) }

/-- 60_exceptions.md (R209, decision D20): which condition a step raises, in the order of the phases. The conditions
themselves rest on the spec's decisions D4 (fetch), D6 (register index) and D7 (stack), log entry 4. -/
def Obligations.RaisedCauseFollowsThePriority : Prop :=
  ∀ (s t : State) (c : Cause), s.run = .running → s.pc.toNat ≤ 256 → step s = .next t → t.run = .faulted c →
    (254 ≤ s.pc.toNat → c = .outOfRangeAddress 256) ∧
    ∀ ir opa opb : Byte, FetchedBytes s ir opa opb →
      ((∀ m : Mnemonic, defaultOpMap m ≠ ir) → c = .illegalOpcode ir) ∧
      ∀ i : Instr, decode defaultOpMap ir opa opb = .ok i →
        (∀ b : Byte, i.indexOperands.find? (fun x => !validIndex x) = some b → c = .registerIndexOutOfRange b) ∧
        (i.wf = true → (c = .divideByZero ∧ i.mnemonic ∈ [.div, .mod]) ∨
          (c = .outOfRangeAddress (-1) ∧ i.mnemonic ∈ [.push, .call]) ∨
          (c = .outOfRangeAddress 256 ∧ i.mnemonic ∈ [.pop, .ret]))

/-- 60_exceptions.md (R206), 40_fetch_decode_execute.md (R90): a step that faults changes nothing but `run`, the machine has no further step, the run is no
successful one, and reset clears the fault. The spec's decisions (log entry 4): that EVERY fault leaves all but `run` alone is
D12, that the end of a run is a state without a step is D15; the reset input is D19 (log entry 9). -/
def Obligations.RaiseChangesOnlyTheRunState : Prop :=
  ∀ (s t : State) (c : Cause), step s = .next t → t.run = .faulted c →
    t = { s with run := .faulted c } ∧ (∀ u : State, step t ≠ .next u) ∧
      exitStatus t.run = some .failure ∧ t.run ≠ .halted ∧ (applyReset t).run = .running

/-- 40_fetch_decode_execute.md (R89), 41_system.md (R100): HLT and faults end in states that have no step; only reset leaves them; the
run of a loaded program may be infinite. The spec's decisions: HLT leaves `pc` in place (D12, log entry 4); HALTED and FAULTED
are states without a step (D15, log entries 1 and 4); the reset input is D19 (log entry 9). -/
def Obligations.TerminalStatesHaveNoStep : Prop :=
  (∀ s : State, exec .hlt s = .next { s with run := .halted }) ∧
  (∀ s : State, s.run = .halted → step s = .fault .halted) ∧
  (∀ (s : State) (c : Cause), s.run = .faulted c → step s = .fault (.faulted c)) ∧
  (∀ s : State, (applyReset s).run = .running) ∧
  ∃ (program : List Byte) (s : State), loadProgram program = some s ∧
    ∀ k : Nat, ∃ t : State, Sys2Proof.core.run k s = .next t ∧ t.run = .running

/-- 60_exceptions.md R202: DIV and MOD by zero raise `DivideByZero` with nothing changed, no other instruction raises it, and
the machine that raised it has no further step. -/
def Obligations.OnlyDivAndModRaiseDivideByZero : Prop :=
  (∀ (i j : RegIdx) (s : State), s.reg j = 0 →
    exec (.div (regByte i) (regByte j)) s = .next { s with run := .faulted .divideByZero } ∧
    exec (.mod (regByte i) (regByte j)) s = .next { s with run := .faulted .divideByZero }) ∧
  ∀ (ins : Instr) (s t : State), s.run = .running → exec ins s = .next t → t.run = .faulted .divideByZero →
    (∃ i j : RegIdx, (ins = .div (regByte i) (regByte j) ∨ ins = .mod (regByte i) (regByte j)) ∧ s.reg j = 0) ∧
    ∀ u : State, step t ≠ .next u

/-- 60_exceptions.md (R205, decision D16; R219): the fault codes and what the host reports. -/
def Obligations.FaultCodesAndExitStatuses : Prop :=
  (∀ ir : Byte, (RunState.faulted (.illegalOpcode ir)).faultCode = 1) ∧ (RunState.faulted .divideByZero).faultCode = 2 ∧
  (∀ a : Int, (RunState.faulted (.outOfRangeAddress a)).faultCode = 3) ∧
  (∀ b : Byte, (RunState.faulted (.registerIndexOutOfRange b)).faultCode = 4) ∧
  RunState.running.faultCode = 0 ∧ RunState.halted.faultCode = 0 ∧
  exitStatus .halted = some .success ∧ (∀ c : Cause, exitStatus (.faulted c) = some .failure) ∧ exitStatus .running = none

/-- 40_fetch_decode_execute.md (R87): a step of an instruction that is no control-flow instruction and not HLT, and raises
nothing, moves `pc` by `ir[7:6] + 1` without wrap, to at most 256. The 9 bits without wrap and the bound 256 are the spec's
decision D3 with D4 (log entry 4); the model's sum is in 9 bits and uses the operand count of the format (log entries 7 and 12,
DEDUCED). The arity is that of the default opcode (D2, log entry 2). -/
def Obligations.StepAdvancesByTheOpcodeArity : Prop :=
  ∀ (s t : State) (ir opa opb : Byte) (m : Mnemonic), FetchedBytes s ir opa opb → defaultOpMap m = ir →
    m ∉ [.jmp, .jeq, .jne, .call, .ret] → step s = .next t → t.run = .running →
    t.pc.toNat = s.pc.toNat + arityField ir + 1 ∧ t.pc.toNat ≤ 256

/-- 40_fetch_decode_execute.md (R94, marked derived there; the opcode 0x00 of NOP is D2): from a running state whose memory
is zero from `pc` up, the machine runs NOPs up to 254 and raises there, the spec's decision D4 (log entry 4). -/
def Obligations.ZeroMemoryRunsNopsUpTo254 : Prop :=
  ∀ s : State, s.run = .running → s.pc.toNat ≤ 254 → (∀ a : Nat, s.pc.toNat ≤ a → s.mem.read a = 0) →
    Sys2Proof.core.run (254 - s.pc.toNat) s = .next { s with pc := 254 } ∧
    Sys2Proof.core.run (254 - s.pc.toNat + 1) s = .next { s with pc := 254, run := .faulted (.outOfRangeAddress 256) }

/-- Log entry 6: the instruction that the host places is the one the next step runs, and placing it changes memory only. -/
def Obligations.PlacedWordIsTheNextInstruction : Prop :=
  ∀ (s : State) (nbits w : Nat) (i : Instr), s.run = .running → s.pc.toNat ≤ 253 → s.mem.wf = true →
    decodeTableWord nbits w = some i →
    step (s.withFetchWord nbits w) = exec i (s.withFetchWord nbits w) ∧
    { s.withFetchWord nbits w with mem := s.mem } = s

/-! ## Registers, memory, flags, output: what every step may touch -/

/-- 10_state.md (R13, decision D1): a register write stores the value modulo 256 and changes no other register. -/
def Obligations.RegisterWriteWrapsModulo256 : Prop :=
  ∀ (s : State) (i : RegIdx) (v : Int), (((s.setReg i v).reg i).toNat : Int) = v % 256 ∧ WritesOnlyRegs [i] s (s.setReg i v) ∧
    (s.setReg i v).pc = s.pc

/-- 20_memory.md (R42, R43; an access outside 0..255 raises: R44, decision D5): the two memory primitives. -/
def Obligations.MemoryPrimitivesReadAndWriteOneByte : Prop :=
  ∀ (s : State) (addr v : Int),
    (0 ≤ addr → addr ≤ 255 → memRead s addr = .ok (s.mem.read addr.toNat) ∧
      (s.mem.wf = true → ∃ t : State, memWrite s addr v = .ok t ∧ ((t.mem.read addr.toNat).toNat : Int) = v % 256 ∧
        SameMemoryExcept addr s t ∧ t.mem.wf = true ∧ { t with mem := s.mem } = s)) ∧
    (addr < 0 ∨ 255 < addr →
      memRead s addr = .error (.outOfRangeAddress addr) ∧ memWrite s addr v = .error (.outOfRangeAddress addr))

/-- 10_state.md (R14, the table of register accesses): which registers each instruction can change. -/
def Obligations.RegistersChangeOnlyAsTabulated : Prop :=
  ∀ (ins : Instr) (s t : State), exec ins s = .next t →
    (ins.mnemonic ∈ [.nop, .hlt, .prn, .jmp, .jeq, .jne, .cmp] → SameRegsExcept [] s t) ∧
    (ins.mnemonic ∈ [.push, .call, .ret] → SameRegsExcept [7] s t) ∧
    (ins.mnemonic = .pop → ∀ i : RegIdx, ins = .pop (regByte i) → SameRegsExcept [i, 7] s t) ∧
    ∀ i : RegIdx, ins.operands.head? = some (regByte i) → ins.mnemonic ∉ [.push, .call, .pop] → SameRegsExcept [i] s t

/-- 20_memory.md (R41): only PUSH and CALL change memory, and only the byte at `sp - 1`. That `sp - 1` is an
address, no write being made at `sp = 0`, is the spec's decision D7 (log entry 4). -/
def Obligations.OnlyPushAndCallWriteMemory : Prop :=
  ∀ s t : State, s.mem.wf = true → step s = .next t →
    SameMemory s t ∨
    (s.mem.read s.pc.toNat ∈ [defaultOpMap .push, defaultOpMap .call] ∧ 0 ≤ stackTop s - 1 ∧
      SameMemoryExcept (stackTop s - 1) s t)

/-- 10_state.md (R20, decision D14): a step leaves the output alone, or is a PRN that appends the value of its register. -/
def Obligations.OnlyPrnExtendsTheOutput : Prop :=
  ∀ s t : State, step s = .next t →
    t.out = s.out ∨
    ∃ i : RegIdx, s.mem.read s.pc.toNat = defaultOpMap .prn ∧ s.mem.read (s.pc.toNat + 1) = regByte i ∧
      t.out = s.out ++ [s.reg i]

/-- 10_state.md R18: CMP is the only writer of the flags and sets exactly one of them; JEQ and JNE are their only readers and
read `FL.E` alone: whatever the flags held, every other component of the next state is the same. -/
def Obligations.FlagsHaveOneWriterAndTwoReadersOfE : Prop :=
  (∀ (ins : Instr) (s t : State), exec ins s = .next t → ins.mnemonic ≠ .cmp → t.flags = s.flags) ∧
  (∀ (i j : RegIdx) (s : State), ∃ t : State, exec (.cmp (regByte i) (regByte j)) s = .next t ∧
    t.flags ∈ [⟨true, false, false⟩, ⟨false, true, false⟩, ⟨false, false, true⟩]) ∧
  (∃ s t u : State, exec (.jeq 0) s = .next t ∧ exec (.jeq 0) { s with flags := { s.flags with E := true } } = .next u ∧
    t.pc ≠ u.pc) ∧
  (∃ s t u : State, exec (.jne 0) s = .next t ∧ exec (.jne 0) { s with flags := { s.flags with E := true } } = .next u ∧
    t.pc ≠ u.pc) ∧
  ∀ (ins : Instr) (s t : State) (f : Flags), exec ins s = .next t →
    (ins.mnemonic ∉ [.jeq, .jne] ∨ f.E = s.flags.E) →
    ∃ u : State, exec ins { s with flags := f } = .next u ∧ { u with flags := t.flags } = t

/-! ## System instructions -/

/-- 41_system.md R101: NOP. The opcode byte is the default of `OPMAP` (D2, log entry 2). -/
def Obligations.NopOnlyAdvances : Prop :=
  encode defaultOpMap .nop = [0x00] ∧
  ∀ s : State, ∃ t : State, exec .nop s = .next t ∧ t.pc = s.pc + 1 ∧ WritesOnlyRegs [] s t

/-- 41_system.md, HLT (R100): `run` becomes HALTED and nothing else changes. That `pc` stays on the HLT is the spec's
decision D12. -/
def Obligations.HltHaltsInPlace : Prop :=
  encode defaultOpMap .hlt = [0x01] ∧
  ∀ s : State, ∃ t : State, exec .hlt s = .next t ∧ t.run = .halted ∧ t.pc = s.pc ∧ t.flags = s.flags ∧ t.out = s.out ∧
    SameRegsExcept [] s t ∧ SameMemory s t

/-- 41_system.md, PRN (R102, decision D14): the register's value is appended to the output. -/
def Obligations.PrnAppendsTheRegister : Prop :=
  (∀ a : Byte, encode defaultOpMap (.prn a) = [0x47, a]) ∧
  ∀ (i : RegIdx) (s : State), ∃ t : State, exec (.prn (regByte i)) s = .next t ∧ t.out = s.out ++ [s.reg i] ∧
    t.pc = s.pc + 2 ∧ t.flags = s.flags ∧ t.run = s.run ∧ SameRegsExcept [] s t ∧ SameMemory s t

/-! ## Data movement and stack -/

/-- 42_data_stack.md R110: LDI. The literal is any byte; an index above 7 raises. The spec's decisions (log entry 4): the literal is the
whole byte and is never checked (D22); an index above 7 raises (D6) and changes nothing else (D12). The opcode byte is the
default of `OPMAP` (D2, log entry 2). -/
def Obligations.LdiLoadsTheLiteral : Prop :=
  (∀ a imm : Byte, encode defaultOpMap (.ldi a imm) = [0x82, a, imm]) ∧
  (∀ (i : RegIdx) (imm : Byte) (s : State), ∃ t : State, exec (.ldi (regByte i) imm) s = .next t ∧ t.reg i = imm ∧
    t.pc = s.pc + 3 ∧ WritesOnlyRegs [i] s t) ∧
  ∀ (a imm : Byte) (s : State), 7 < a.toNat →
    exec (.ldi a imm) s = .next { s with run := .faulted (.registerIndexOutOfRange a) }

/-- 42_data_stack.md, PUSH (R111). The spec's decisions (log entry 4): `sp = 0` raises and does not wrap (D7) and then changes
nothing else (D12), and PUSH 7 stores the decremented stack pointer (D8). The address stored to is `stackTop` of the state after `decSp`, as in the meaning. -/
def Obligations.PushStoresBelowTheStackPointer : Prop :=
  (∀ a : Byte, encode defaultOpMap (.push a) = [0x45, a]) ∧
  (∀ (i : RegIdx) (s : State), s.mem.wf = true → 0 < s.sp.toNat →
    ∃ s₁ t : State, decSp s = .ok s₁ ∧ stackTop s₁ = stackTop s - 1 ∧
      exec (.push (regByte i)) s = .next t ∧ t.sp.toNat = s.sp.toNat - 1 ∧
      t.mem.read (stackTop s₁).toNat = (if i = 7 then t.sp else s.reg i) ∧ SameMemoryExcept (stackTop s₁) s t ∧
      SameRegsExcept [7] s t ∧ SameControl s t ∧ t.pc = s.pc + 2) ∧
  ∀ (i : RegIdx) (s : State), s.sp.toNat = 0 →
    exec (.push (regByte i)) s = .next { s with run := .faulted (.outOfRangeAddress (-1)) }

/-- 42_data_stack.md, POP (R112). The spec's decisions (log entry 4): an incremented stack pointer of 256 raises (D7) and then
changes nothing else (D12), and POP 7 ends with the popped byte plus one (D8). -/
def Obligations.PopLoadsTheTopOfTheStack : Prop :=
  (∀ a : Byte, encode defaultOpMap (.pop a) = [0x46, a]) ∧
  (∀ (i : RegIdx) (s : State), i ≠ 7 → s.sp.toNat < 255 →
    ∃ t : State, exec (.pop (regByte i)) s = .next t ∧ t.reg i = s.mem.read s.sp.toNat ∧ t.sp.toNat = s.sp.toNat + 1 ∧
      WritesOnlyRegs [i, 7] s t ∧ t.pc = s.pc + 2) ∧
  (∀ s : State, (s.mem.read s.sp.toNat).toNat < 255 →
    ∃ t : State, exec (.pop (regByte 7)) s = .next t ∧ t.sp.toNat = (s.mem.read s.sp.toNat).toNat + 1 ∧
      WritesOnlyRegs [7] s t ∧ t.pc = s.pc + 2) ∧
  (∀ (i : RegIdx) (s : State), i ≠ 7 → s.sp.toNat = 255 →
    exec (.pop (regByte i)) s = .next { s with run := .faulted (.outOfRangeAddress 256) }) ∧
  ∀ s : State, (s.mem.read s.sp.toNat).toNat = 255 →
    exec (.pop (regByte 7)) s = .next { s with run := .faulted (.outOfRangeAddress 256) }

/-- 42_data_stack.md section on the stack (R113): PUSH r then POP r2 gives x[r2] the old x[r] and restores the stack pointer,
for r and r2 other than 7 and a PUSH that does not fault (90_conflicts.md C3). -/
def Obligations.PushThenPopRestores : Prop :=
  ∀ (i j : RegIdx) (s : State), i ≠ 7 → j ≠ 7 → s.mem.wf = true → 0 < s.sp.toNat →
    ∃ t u : State, exec (.push (regByte i)) s = .next t ∧ exec (.pop (regByte j)) t = .next u ∧
      u.reg j = s.reg i ∧ u.sp = s.sp ∧ SameRegsExcept [j] s u

/-- 20_memory.md (R53, marked derived there): a byte that PUSH stores where the next instruction stands is the opcode that
the next step fetches. That PUSH 7 stores the decremented stack pointer is the spec's decision D8 (log entry 4). -/
def Obligations.StoredByteIsFetchedByTheNextStep : Prop :=
  ∀ (i : RegIdx) (s t : State), s.mem.wf = true → s.pc.toNat ≤ 251 → s.sp.toNat = s.pc.toNat + 3 →
    exec (.push (regByte i)) s = .next t →
    FetchedBytes t (if i = 7 then t.sp else s.reg i) (s.mem.read (s.pc.toNat + 3)) (s.mem.read (s.pc.toNat + 4)) ∧
    t.pc.toNat = s.pc.toNat + 2

/-! ## Arithmetic -/

/-- 43_arith.md, ADD, SUB, MUL (R120, R121, R122). The reduction modulo 256 rests on the spec's decision D1. -/
def Obligations.AddSubMulWrapModulo256 : Prop :=
  ComputesRR 0xA0 .add (fun _ _ => True) (fun p q r => r.toNat = (p.toNat + q.toNat) % 256) ∧
  ComputesRR 0xA1 .sub (fun _ _ => True) (fun p q r => (r.toNat : Int) = ((p.toNat : Int) - q.toNat) % 256) ∧
  ComputesRR 0xA2 .mul (fun _ _ => True) (fun p q r => r.toNat = p.toNat * q.toNat % 256)

/-- 43_arith.md, DIV and MOD with a divisor other than 0 (R123, R124): the unsigned quotient and remainder, the spec's
decision D9. Where the divisor is 0 they raise: `OnlyDivAndModRaiseDivideByZero`. -/
def Obligations.DivModGiveQuotientAndRemainder : Prop :=
  ComputesRR 0xA3 .div (fun _ q => q ≠ 0)
    (fun p q r => q.toNat * r.toNat ≤ p.toNat ∧ p.toNat < q.toNat * (r.toNat + 1)) ∧
  ComputesRR 0xA4 .mod (fun _ q => q ≠ 0)
    (fun p q r => r.toNat < q.toNat ∧ ∃ k : Nat, p.toNat = k * q.toNat + r.toNat)

/-- 43_arith.md, INC and DEC (R125, R126). The wrap rests on the spec's decision D1. -/
def Obligations.IncDecWrapModulo256 : Prop :=
  ComputesR 0x65 .inc (fun p r => r.toNat = (p.toNat + 1) % 256) ∧
  ComputesR 0x66 .dec (fun p r => (r.toNat : Int) = ((p.toNat : Int) - 1) % 256)

/-! ## Bitwise and shifts -/

/-- 44_logic_shift.md R130, R131, R132: AND, OR, XOR, bit by bit. The opcode bytes are the default of `OPMAP` (D2, log
entry 2). -/
def Obligations.AndOrXorAreBitwise : Prop :=
  ComputesRR 0xA8 .and (fun _ _ => True) (fun p q r => ∀ k : Nat, r.getLsbD k = (p.getLsbD k && q.getLsbD k)) ∧
  ComputesRR 0xAA .or (fun _ _ => True) (fun p q r => ∀ k : Nat, r.getLsbD k = (p.getLsbD k || q.getLsbD k)) ∧
  ComputesRR 0xAB .xor (fun _ _ => True) (fun p q r => ∀ k : Nat, r.getLsbD k = (p.getLsbD k ^^ q.getLsbD k))

/-- 44_logic_shift.md, NOT (R133): `255 - x[a]`, each of the 8 bits inverted. The 8 bits are the spec's decision D1. -/
def Obligations.NotInvertsEveryBit : Prop :=
  ComputesR 0x69 .not (fun p r => r.toNat = 255 - p.toNat ∧ ∀ k : Nat, k < 8 → r.getLsbD k = !p.getLsbD k)

/-- 44_logic_shift.md, SHL and SHR (R134, R135, R136): logical shifts by the whole of x[b]; amounts of 8 and more give 0,
the spec's decision D10. -/
def Obligations.ShiftsUseTheWholeAmount : Prop :=
  ComputesRR 0xAC .shl (fun _ _ => True)
    (fun p q r => r.toNat = p.toNat * 2 ^ q.toNat % 256 ∧ (8 ≤ q.toNat → r = 0)) ∧
  ComputesRR 0xAD .shr (fun _ _ => True)
    (fun p q r => r.toNat = p.toNat / 2 ^ q.toNat ∧ (8 ≤ q.toNat → r = 0))

/-! ## Compare and jumps -/

/-- 45_compare_jump.md, CMP (R140): all three flags, from the unsigned ordering (the spec's decision D11). -/
def Obligations.CmpSetsTheThreeFlags : Prop :=
  (∀ a b : Byte, encode defaultOpMap (.cmp a b) = [0xA7, a, b]) ∧
  ∀ (i j : RegIdx) (s : State), ∃ t : State, exec (.cmp (regByte i) (regByte j)) s = .next t ∧
    (t.flags.E = true ↔ s.reg i = s.reg j) ∧ (t.flags.G = true ↔ (s.reg i).toNat > (s.reg j).toNat) ∧
    (t.flags.L = true ↔ (s.reg i).toNat < (s.reg j).toNat) ∧
    t.pc = s.pc + 3 ∧ SameRegsExcept [] s t ∧ SameMemory s t ∧ t.run = s.run ∧ t.out = s.out

/-- 45_compare_jump.md R141, R142, R143: JMP always, JEQ if `FL.E`, JNE if not `FL.E`, each to the value of its register
exactly; an index above 7 raises whether or not the jump would be taken (R85). The spec's decisions (log entry 4): the raise is
D6 and changes nothing else (D12); the jump gives the final `pc` (D18). The opcode bytes are the default of `OPMAP` (D2, log
entry 2). -/
def Obligations.JumpsGoToTheRegisterExactly : Prop :=
  JumpsWhen 0x54 .jmp (fun _ => True) ∧ JumpsWhen 0x55 .jeq (fun e => e = true) ∧ JumpsWhen 0x56 .jne (fun e => e = false)

/-- 95_test_vectors.md S3, 45_compare_jump.md (R142, R143): "executing `CMP a, b` then `JEQ target` jumps iff
`reg[a] == reg[b]`", and JNE iff not. -/
def Obligations.CompareThenJumpBranchesOnEquality : Prop :=
  ∀ (i j k : RegIdx) (s : State),
    ∃ t u v : State, exec (.cmp (regByte i) (regByte j)) s = .next t ∧ exec (.jeq (regByte k)) t = .next u ∧
      exec (.jne (regByte k)) t = .next v ∧
      (s.reg i = s.reg j → u.pc.toNat = (s.reg k).toNat ∧ v.pc = s.pc + 5) ∧
      (s.reg i ≠ s.reg j → u.pc = s.pc + 5 ∧ v.pc.toNat = (s.reg k).toNat)

/-! ## Subroutines -/

/-- 46_call_return.md, CALL (R150). The spec's decisions (log entry 4): `sp = 0` raises (D7) and then changes nothing else
(D12), CALL 7 jumps to the decremented stack pointer (D8), and the jump gives the final `pc` (D18). The address stored to is `stackTop` of the state after `decSp`, as in the meaning. -/
def Obligations.CallPushesTheReturnAddress : Prop :=
  (∀ a : Byte, encode defaultOpMap (.call a) = [0x50, a]) ∧
  (∀ (i : RegIdx) (s : State), s.mem.wf = true → 0 < s.sp.toNat →
    ∃ s₁ t : State, decSp s = .ok s₁ ∧ stackTop s₁ = stackTop s - 1 ∧
      exec (.call (regByte i)) s = .next t ∧ t.sp.toNat = s.sp.toNat - 1 ∧
      (s.pc.toNat ≤ 253 → (t.mem.read (stackTop s₁).toNat).toNat = s.pc.toNat + 2) ∧
      SameMemoryExcept (stackTop s₁) s t ∧ SameRegsExcept [7] s t ∧ SameControl s t ∧
      t.pc.toNat = (if i = 7 then t.sp else s.reg i).toNat) ∧
  ∀ (i : RegIdx) (s : State), s.sp.toNat = 0 →
    exec (.call (regByte i)) s = .next { s with run := .faulted (.outOfRangeAddress (-1)) }

/-- 46_call_return.md, RET (R151): `pc` becomes the popped byte exactly. That `sp = 255` raises is the spec's decision D7,
that it then changes nothing else D12, that nothing is added to `pc` D18 (log entry 4). -/
def Obligations.RetPopsTheProgramCounter : Prop :=
  encode defaultOpMap .ret = [0x11] ∧
  (∀ s : State, s.sp.toNat < 255 →
    ∃ t : State, exec .ret s = .next t ∧ t.pc.toNat = (s.mem.read s.sp.toNat).toNat ∧ t.sp.toNat = s.sp.toNat + 1 ∧
      WritesOnlyRegs [7] s t) ∧
  ∀ s : State, s.sp.toNat = 255 → exec .ret s = .next { s with run := .faulted (.outOfRangeAddress 256) }

/-- 95_test_vectors.md S4, 46_call_return.md (R151): a RET that finds the stack pointer and the stored byte as CALL left
them resumes at the instruction after the CALL and restores the stack pointer. -/
def Obligations.CallThenRetResumesAfterTheCall : Prop :=
  ∀ (i : RegIdx) (s : State), s.mem.wf = true → 0 < s.sp.toNat → s.pc.toNat ≤ 253 →
    ∃ t : State, exec (.call (regByte i)) s = .next t ∧
      ∀ u : State, u.sp = t.sp → u.mem.read t.sp.toNat = t.mem.read t.sp.toNat →
        ∃ v : State, exec .ret u = .next v ∧ v.pc.toNat = s.pc.toNat + 2 ∧ v.sp = s.sp
end

