-- ==== Sys2Proof/Laws/Decode.lean ====
section
/-! SUPPORT. Laws of the encoding: the lookup, the shape of an instruction, and the default opcode map. -/

namespace Sys2Proof

theorem Mnemonic.mem_all (m : Mnemonic) : m ∈ Mnemonic.all := by cases m <;> decide

theorem lookup_eq_some {M : OpMap} (hM : M.Valid) {ir : Byte} {m : Mnemonic} : lookup M ir = some m ↔ M m = ir := by
  constructor
  · intro h
    simpa using List.find?_some h
  · intro h
    cases hl : lookup M ir with
    | none =>
      have := List.find?_eq_none.mp hl m (Mnemonic.mem_all m)
      simp [h] at this
    | some n =>
      have hn : M n = ir := by simpa using List.find?_some hl
      rw [hM.1 n m (hn.trans h.symm)]

theorem lookup_eq_none {M : OpMap} {ir : Byte} : lookup M ir = none ↔ ∀ m, M m ≠ ir := by
  constructor
  · intro h m
    simpa using List.find?_eq_none.mp h m (Mnemonic.mem_all m)
  · intro h
    exact List.find?_eq_none.mpr fun m _ => by simpa using h m

/-- The mnemonic that a lookup finds has the opcode that was looked up, whatever the map. -/
theorem opcode_of_lookup {M : OpMap} {ir : Byte} {m : Mnemonic} (h : lookup M ir = some m) : M m = ir := by
  simpa using List.find?_some h

theorem decode_eq_ok {M : OpMap} {ir opa opb : Byte} {i : Instr} :
    decode M ir opa opb = .ok i ↔ ∃ m, lookup M ir = some m ∧ m.assemble opa opb = i := by
  unfold decode
  cases lookup M ir <;> simp

theorem decode_eq_error {M : OpMap} {ir opa opb : Byte} {e : DecodeError} :
    decode M ir opa opb = .error e ↔ lookup M ir = none ∧ e = .illegalOpcode ir := by
  unfold decode
  cases lookup M ir <;> simp [eq_comm]

@[simp] theorem Mnemonic.mnemonic_assemble (m : Mnemonic) (opa opb : Byte) : (m.assemble opa opb).mnemonic = m := by
  cases m <;> rfl

theorem Mnemonic.operands_assemble (m : Mnemonic) (opa opb : Byte) :
    (m.assemble opa opb).operands = [opa, opb].take m.operandCount := by
  cases m <;> rfl

theorem Mnemonic.operandCount_le (m : Mnemonic) : m.operandCount ≤ 2 := by cases m <;> decide

theorem Instr.length_operands (i : Instr) : i.operands.length = i.mnemonic.operandCount := by cases i <;> rfl

/-- An instruction is put together again from its mnemonic and operand bytes, whatever stands in the bytes its format does
not use. -/
theorem Instr.assemble_operands (i : Instr) (rest : List Byte) :
    i.mnemonic.assemble ((i.operands ++ rest).getD 0 0) ((i.operands ++ rest).getD 1 0) = i := by
  cases i <;> rfl

/-- Well-formedness is the check of the index operands (R85). -/
theorem Instr.wf_iff (i : Instr) : i.wf = i.indexOperands.all validIndex := by
  cases i <;> simp [Instr.wf, Instr.indexOperands, Instr.mnemonic, Mnemonic.format, Instr.operands]

end Sys2Proof
end

