-- ==== Sys2Proof/Laws/Memory.lean ====
section
/-! SUPPORT. The memory's laws: read after write, the canonical form and its preservation, equality from reads, images. -/

namespace Sys2Proof.Machine

theorem Memory.read_cons (a : Nat) (v : Byte) (m : Memory) (b : Nat) (h : m.read a = Memory.unlisted) :
    (Memory.cons a v m).read b = if b = a then v else m.read b := by
  unfold Memory.cons
  split
  · rename_i hv; split
    · rename_i hb; rw [hb, h, hv]
    · rfl
  · rfl

/-- Below the first address of a canonical memory nothing is listed. -/
theorem Memory.read_below {lo a : Nat} {m : Memory} (h : m.wfFrom lo = true) (ha : a < lo) : m.read a = Memory.unlisted := by
  induction m generalizing lo with
  | nil => rfl
  | cons c rest ih =>
    obtain ⟨b, w⟩ := c
    simp only [Memory.wfFrom, Bool.and_eq_true, decide_eq_true_eq] at h
    have hne : a ≠ b := by omega
    simp only [Memory.read, hne, if_false]
    exact ih h.2 (by omega)

theorem Memory.wfFrom_mono {lo lo' : Nat} {m : Memory} (h : m.wfFrom lo = true) (hl : lo' ≤ lo) : m.wfFrom lo' = true := by
  cases m with
  | nil => rfl
  | cons c rest =>
    obtain ⟨b, w⟩ := c
    simp only [Memory.wfFrom, Bool.and_eq_true, decide_eq_true_eq] at h ⊢
    exact ⟨⟨⟨by omega, h.1.1.2⟩, h.1.2⟩, h.2⟩

theorem Memory.wfFrom_cons {lo a : Nat} {v : Byte} {m : Memory} (hm : m.wfFrom (a + 1) = true) (hlo : lo ≤ a)
    (ha : a < Config.memSize) : (Memory.cons a v m).wfFrom lo = true := by
  unfold Memory.cons
  split
  · exact Memory.wfFrom_mono hm (by omega)
  · rename_i hv
    simp only [Memory.wfFrom, Bool.and_eq_true, decide_eq_true_eq]
    exact ⟨⟨⟨hlo, ha⟩, hv⟩, hm⟩

theorem Memory.wfFrom_write {lo a : Nat} {v : Byte} {m : Memory} (h : m.wfFrom lo = true) (hlo : lo ≤ a)
    (ha : a < Config.memSize) : (m.write a v).wfFrom lo = true := by
  induction m generalizing lo with
  | nil => exact Memory.wfFrom_cons rfl hlo ha
  | cons c rest ih =>
    obtain ⟨b, w⟩ := c
    simp only [Memory.write]
    have h' := h
    simp only [Memory.wfFrom, Bool.and_eq_true, decide_eq_true_eq] at h'
    split
    · refine Memory.wfFrom_cons ?_ hlo ha
      simp only [Memory.wfFrom, Bool.and_eq_true, decide_eq_true_eq]
      exact ⟨⟨⟨by omega, h'.1.1.2⟩, h'.1.2⟩, h'.2⟩
    · split
      · rename_i hab
        subst hab
        exact Memory.wfFrom_cons h'.2 hlo ha
      · simp only [Memory.wfFrom, Bool.and_eq_true, decide_eq_true_eq]
        exact ⟨h'.1, ih h'.2 (by omega)⟩

/-- A write inside the address space keeps the canonical form. -/
theorem Memory.wf_write {a : Nat} {v : Byte} {m : Memory} (h : m.wf = true) (ha : a < Config.memSize) :
    (m.write a v).wf = true :=
  Memory.wfFrom_write h (Nat.zero_le a) ha

theorem Memory.read_write_of_wfFrom {lo : Nat} {m : Memory} (h : m.wfFrom lo = true) (a : Nat) (v : Byte) (b : Nat) :
    (m.write a v).read b = if b = a then v else m.read b := by
  induction m generalizing lo with
  | nil => exact Memory.read_cons a v [] b rfl
  | cons c rest ih =>
    obtain ⟨d, w⟩ := c
    have h' := h
    simp only [Memory.wfFrom, Bool.and_eq_true, decide_eq_true_eq] at h'
    simp only [Memory.write]
    split
    · rename_i had
      refine Memory.read_cons a v _ b ?_
      have hd : Memory.wfFrom d ((d, w) :: rest) = true := by
        simp only [Memory.wfFrom, Bool.and_eq_true, decide_eq_true_eq]
        exact ⟨⟨⟨by omega, h'.1.1.2⟩, h'.1.2⟩, h'.2⟩
      exact Memory.read_below hd had
    · split
      · rename_i _ had
        subst had
        rw [Memory.read_cons a v rest b (Memory.read_below h'.2 (by omega))]
        simp only [Memory.read]
        split <;> rfl
      · rename_i had
        simp only [Memory.read, ih h'.2]
        by_cases hbd : b = d
        · have : b ≠ a := by omega
          simp [hbd]
          omega
        · simp [hbd]

/-- Read after write, on any memory in canonical form. -/
theorem Memory.read_write {m : Memory} (h : m.wf = true) (a : Nat) (v : Byte) (b : Nat) :
    (m.write a v).read b = if b = a then v else m.read b :=
  Memory.read_write_of_wfFrom h a v b

/-- Two canonical memories that read alike are equal data. -/
theorem Memory.eq_of_read_eq {lo : Nat} {m n : Memory} (hm : m.wfFrom lo = true) (hn : n.wfFrom lo = true)
    (h : ∀ a, m.read a = n.read a) : m = n := by
  induction m generalizing lo n with
  | nil =>
    cases n with
    | nil => rfl
    | cons c rest =>
      obtain ⟨a, v⟩ := c
      simp only [Memory.wfFrom, Bool.and_eq_true, decide_eq_true_eq] at hn
      have := h a
      simp [Memory.read] at this
      exact absurd this.symm hn.1.2
  | cons c rest ih =>
    obtain ⟨a, v⟩ := c
    simp only [Memory.wfFrom, Bool.and_eq_true, decide_eq_true_eq] at hm
    cases n with
    | nil =>
      have := h a
      simp [Memory.read] at this
      exact absurd this hm.1.2
    | cons d rest' =>
      obtain ⟨b, w⟩ := d
      simp only [Memory.wfFrom, Bool.and_eq_true, decide_eq_true_eq] at hn
      have hab : a = b := by
        rcases Nat.lt_trichotomy a b with hlt | heq | hgt
        · have h1 := h a
          have h2 : Memory.read rest' a = Memory.unlisted := Memory.read_below hn.2 (by omega)
          have hne : a ≠ b := by omega
          simp [Memory.read, hne, h2] at h1
          exact absurd h1 hm.1.2
        · exact heq
        · have h1 := h b
          have h2 : Memory.read rest b = Memory.unlisted := Memory.read_below hm.2 (by omega)
          have hne : b ≠ a := by omega
          simp [Memory.read, hne, h2] at h1
          exact absurd h1.symm hn.1.2
      subst hab
      have hv : v = w := by simpa [Memory.read] using h a
      subst hv
      congr 1
      refine ih hm.2 hn.2 fun x => ?_
      by_cases hx : x = a
      · subst hx
        rw [Memory.read_below hm.2 (by omega), Memory.read_below hn.2 (by omega)]
      · simpa [Memory.read, hx] using h x

theorem Memory.wfFrom_place (p : List Byte) (a : Nat) (h : a + p.length ≤ Config.memSize) :
    (Memory.place p a).wfFrom a = true := by
  induction p generalizing a with
  | nil => rfl
  | cons v rest ih =>
    simp only [List.length_cons] at h
    exact Memory.wfFrom_cons (ih (a + 1) (by omega)) (le_refl a) (by omega)

theorem Memory.read_place (p : List Byte) (a k : Nat) (h : a + p.length ≤ Config.memSize) :
    (Memory.place p a).read (a + k) = p.getD k 0 := by
  induction p generalizing a k with
  | nil => rfl
  | cons v rest ih =>
    simp only [List.length_cons] at h
    have hw := Memory.wfFrom_place rest (a + 1) (by omega)
    rw [Memory.place, Memory.read_cons _ _ _ _ (Memory.read_below hw (by omega))]
    cases k with
    | zero => simp
    | succ k =>
      have : a + (k + 1) = a + 1 + k := by omega
      rw [this, ih (a + 1) k (by omega)]
      simp
      omega

/-- An image is in canonical form. -/
theorem Memory.wf_ofImage {p : List Byte} {m : Memory} (h : Memory.ofImage p = some m) : m.wf = true := by
  unfold Memory.ofImage at h
  split at h
  · cases h
    exact Memory.wfFrom_place p 0 (by omega)
  · cases h

/-- Storing a run of bytes keeps the canonical form. -/
theorem Memory.wf_storeBytes {m : Memory} (h : m.wf = true) (a : Nat) (bs : List Byte) : (m.storeBytes a bs).wf = true := by
  induction bs generalizing m a with
  | nil => exact h
  | cons v rest ih =>
    simp only [Memory.storeBytes]
    apply ih
    split
    · exact Memory.wf_write h ‹_›
    · exact h

end Sys2Proof.Machine
end

