-- ==== Sys2Proof/Laws/State.lean ====
section
/-! SUPPORT. What each update of the state does to each field, one lemma per field. -/

namespace Sys2Proof.Machine

/-! ## The register file -/

theorem Regs.get_set (r : Regs) (i j : RegIdx) (v : Byte) : (r.set i v).get j = if j = i then v else r.get j := by
  fin_cases i <;> fin_cases j <;> rfl

theorem Regs.ext_get {r q : Regs} (h : ∀ i, r.get i = q.get i) : r = q := by
  have h0 := h 0; have h1 := h 1; have h2 := h 2; have h3 := h 3
  have h4 := h 4; have h5 := h 5; have h6 := h 6; have h7 := h 7
  cases r; cases q
  simp_all [Regs.get]

@[simp] theorem Regs.set_set (r : Regs) (i : RegIdx) (v w : Byte) : (r.set i v).set i w = r.set i w := by
  fin_cases i <;> rfl

/-! ## Reading a register of an updated state -/

@[simp] theorem State.reg_mk (r : Regs) (p : PcWord) (f : Flags) (m : Memory) (n : RunState) (o : List Byte) (i : RegIdx) :
    (State.mk r p f m n o).reg i = r.get i := rfl

theorem State.regs_get (s : State) (i : RegIdx) : s.regs.get i = s.reg i := rfl

theorem State.reg_setReg (s : State) (i j : RegIdx) (v : Int) :
    (s.setReg i v).reg j = if j = i then trunc8 v else s.reg j := Regs.get_set s.regs i j _

@[simp] theorem State.reg_setReg_self (s : State) (i : RegIdx) (v : Int) : (s.setReg i v).reg i = trunc8 v := by
  simp [State.reg_setReg]

@[simp] theorem State.sp_def (s : State) : s.sp = s.reg 7 := rfl

/-! ## reset -/

@[simp] theorem State.resetWith_regs (m : Memory) : (State.resetWith m).regs = Regs.reset := rfl
@[simp] theorem State.resetWith_pc (m : Memory) : (State.resetWith m).pc = 0 := rfl
@[simp] theorem State.resetWith_flags (m : Memory) : (State.resetWith m).flags = Flags.reset := rfl
@[simp] theorem State.resetWith_mem (m : Memory) : (State.resetWith m).mem = m := rfl
@[simp] theorem State.resetWith_run (m : Memory) : (State.resetWith m).run = .running := rfl
@[simp] theorem State.resetWith_out (m : Memory) : (State.resetWith m).out = [] := rfl

/-! ## setReg -/

@[simp] theorem State.setReg_pc (s : State) (i : RegIdx) (v : Int) : (s.setReg i v).pc = s.pc := rfl
@[simp] theorem State.setReg_flags (s : State) (i : RegIdx) (v : Int) : (s.setReg i v).flags = s.flags := rfl
@[simp] theorem State.setReg_mem (s : State) (i : RegIdx) (v : Int) : (s.setReg i v).mem = s.mem := rfl
@[simp] theorem State.setReg_run (s : State) (i : RegIdx) (v : Int) : (s.setReg i v).run = s.run := rfl
@[simp] theorem State.setReg_out (s : State) (i : RegIdx) (v : Int) : (s.setReg i v).out = s.out := rfl

/-! ## advance -/

@[simp] theorem State.advance_pc (s : State) (n : Nat) : (s.advance n).pc = s.pc + BitVec.ofNat 9 (n + 1) := rfl
@[simp] theorem State.advance_regs (s : State) (n : Nat) : (s.advance n).regs = s.regs := rfl
@[simp] theorem State.advance_reg (s : State) (n : Nat) (i : RegIdx) : (s.advance n).reg i = s.reg i := rfl
@[simp] theorem State.advance_flags (s : State) (n : Nat) : (s.advance n).flags = s.flags := rfl
@[simp] theorem State.advance_mem (s : State) (n : Nat) : (s.advance n).mem = s.mem := rfl
@[simp] theorem State.advance_run (s : State) (n : Nat) : (s.advance n).run = s.run := rfl
@[simp] theorem State.advance_out (s : State) (n : Nat) : (s.advance n).out = s.out := rfl

/-! ## jump -/

@[simp] theorem State.jump_pc (s : State) (v : Byte) : (s.jump v).pc = zext9 v := rfl
@[simp] theorem State.jump_regs (s : State) (v : Byte) : (s.jump v).regs = s.regs := rfl
@[simp] theorem State.jump_reg (s : State) (v : Byte) (i : RegIdx) : (s.jump v).reg i = s.reg i := rfl
@[simp] theorem State.jump_flags (s : State) (v : Byte) : (s.jump v).flags = s.flags := rfl
@[simp] theorem State.jump_mem (s : State) (v : Byte) : (s.jump v).mem = s.mem := rfl
@[simp] theorem State.jump_run (s : State) (v : Byte) : (s.jump v).run = s.run := rfl
@[simp] theorem State.jump_out (s : State) (v : Byte) : (s.jump v).out = s.out := rfl

/-! ## setFlags -/

@[simp] theorem State.setFlags_pc (s : State) (f : Flags) : (s.setFlags f).pc = s.pc := rfl
@[simp] theorem State.setFlags_regs (s : State) (f : Flags) : (s.setFlags f).regs = s.regs := rfl
@[simp] theorem State.setFlags_reg (s : State) (f : Flags) (i : RegIdx) : (s.setFlags f).reg i = s.reg i := rfl
@[simp] theorem State.setFlags_flags (s : State) (f : Flags) : (s.setFlags f).flags = f := rfl
@[simp] theorem State.setFlags_mem (s : State) (f : Flags) : (s.setFlags f).mem = s.mem := rfl
@[simp] theorem State.setFlags_run (s : State) (f : Flags) : (s.setFlags f).run = s.run := rfl
@[simp] theorem State.setFlags_out (s : State) (f : Flags) : (s.setFlags f).out = s.out := rfl

/-! ## raise: everything but the run state is kept -/

@[simp] theorem raise_pc (c : Cause) (s : State) : (raise c s).pc = s.pc := rfl
@[simp] theorem raise_regs (c : Cause) (s : State) : (raise c s).regs = s.regs := rfl
@[simp] theorem raise_reg (c : Cause) (s : State) (i : RegIdx) : (raise c s).reg i = s.reg i := rfl
@[simp] theorem raise_flags (c : Cause) (s : State) : (raise c s).flags = s.flags := rfl
@[simp] theorem raise_mem (c : Cause) (s : State) : (raise c s).mem = s.mem := rfl
@[simp] theorem raise_run (c : Cause) (s : State) : (raise c s).run = .faulted c := rfl
@[simp] theorem raise_out (c : Cause) (s : State) : (raise c s).out = s.out := rfl

end Sys2Proof.Machine
end

