-- ==== Sys2Proof/Laws/Ops.lean ====
section
/-! SUPPORT. What each shared operation can do: widths, operand validation, memory access, the stack, fetching, raising. -/

namespace Sys2Proof.Machine

/-! ## Widths -/

theorem trunc8_toNat (v : Int) : ((trunc8 v).toNat : Int) = v % 256 := by
  have h : 0 ≤ v % 256 := Int.emod_nonneg v (by decide)
  simp [trunc8, BitVec.toNat_ofInt, h]

@[simp] theorem trunc8_toNat_cast (p : Byte) : trunc8 (p.toNat : Int) = p := by
  have h := trunc8_toNat (p.toNat : Int)
  have hp := p.isLt
  apply BitVec.eq_of_toNat_eq
  omega

/-- A value inside 0..255 is stored as it is. -/
theorem trunc8_toNat_of_range {v : Int} (h0 : 0 ≤ v) (h1 : v < 256) : ((trunc8 v).toNat : Int) = v := by
  rw [trunc8_toNat, Int.emod_eq_of_lt h0 h1]

@[simp] theorem zext9_toNat (v : Byte) : (zext9 v).toNat = v.toNat := by
  have := v.isLt
  simp [zext9]
  omega

/-- Where an instruction executes, the generic advance does not wrap (R87). -/
theorem State.advance_pc_toNat {s : State} {n : Nat} (h : s.pc.toNat ≤ 253) (hn : n ≤ 2) :
    (s.advance n).pc.toNat = s.pc.toNat + n + 1 := by
  rw [State.advance_pc, BitVec.toNat_add, BitVec.toNat_ofNat]
  omega

/-! ## Effects that may raise -/

@[simp] theorem ok_bind {α β : Type} (x : α) (f : α → Except Cause β) : (Except.ok x >>= f) = f x := rfl
@[simp] theorem error_bind {α β : Type} (c : Cause) (f : α → Except Cause β) : (Except.error c >>= f) = .error c := rfl
@[simp] theorem pure_eq_ok {α : Type} (x : α) : (pure x : Except Cause α) = .ok x := rfl

/-! ## Operand validation -/

@[simp] theorem regByte_toNat (i : RegIdx) : (regByte i).toNat = i.val := by
  have := i.isLt
  simp [regByte]
  omega

@[simp] theorem regIndex_regByte (i : RegIdx) : regIndex (regByte i) = .ok i := by
  simp [regIndex]

theorem regIndex_eq_ok {a : Byte} {i : RegIdx} : regIndex a = .ok i ↔ a = regByte i := by
  constructor
  · intro h
    unfold regIndex at h
    split at h
    · cases h
      apply BitVec.eq_of_toNat_eq
      simp
    · cases h
  · rintro rfl
    exact regIndex_regByte i

theorem regIndex_eq_error {a : Byte} {c : Cause} : regIndex a = .error c ↔ 7 < a.toNat ∧ c = .registerIndexOutOfRange a := by
  unfold regIndex
  split
  · constructor
    · intro h; cases h
    · intro h; omega
  · constructor
    · intro h; cases h; exact ⟨by omega, rfl⟩
    · rintro ⟨-, rfl⟩; rfl

theorem regIndex_of_invalid {a : Byte} (h : 7 < a.toNat) : regIndex a = .error (.registerIndexOutOfRange a) :=
  regIndex_eq_error.mpr ⟨h, rfl⟩

/-- An operand byte selects a register or is out of range; there is no third case. -/
theorem regIndex_cases (a : Byte) : (∃ i, a = regByte i ∧ regIndex a = .ok i) ∨
    (7 < a.toNat ∧ regIndex a = .error (.registerIndexOutOfRange a)) := by
  cases h : regIndex a with
  | ok i => exact .inl ⟨i, regIndex_eq_ok.mp h, rfl⟩
  | error c =>
    obtain ⟨hc, rfl⟩ := regIndex_eq_error.mp h
    exact .inr ⟨hc, rfl⟩

/-! ## Raising -/

@[simp] theorem perform_ok (s t : State) : perform s (.ok t) = .next t := rfl
@[simp] theorem perform_error (s : State) (c : Cause) : perform s (.error c) = .next (raise c s) := rfl

theorem perform_eq_next {s t : State} {e : Except Cause State} :
    perform s e = .next t ↔ e = .ok t ∨ ∃ c, e = .error c ∧ t = raise c s := by
  cases e <;> simp [eq_comm]

/-! ## Memory access -/

theorem memRead_of_range (s : State) {addr : Int} (h0 : 0 ≤ addr) (h1 : addr < 256) :
    memRead s addr = .ok (s.mem.read addr.toNat) := by
  simp [memRead, h0, h1]

theorem memRead_out_of_range (s : State) {addr : Int} (h : addr < 0 ∨ 256 ≤ addr) :
    memRead s addr = .error (.outOfRangeAddress addr) := by
  have : ¬ (0 ≤ addr ∧ addr < ((Config.memSize : Nat) : Int)) := by simp only [Config.memSize]; omega
  rw [memRead, if_neg this]

@[simp] theorem memRead_byte (s : State) (p : Byte) : memRead s (p.toNat : Int) = .ok (s.mem.read p.toNat) := by
  have := p.isLt
  rw [memRead_of_range s (by omega) (by omega), Int.toNat_natCast]

theorem memWrite_of_range (s : State) {addr : Int} (v : Int) (h0 : 0 ≤ addr) (h1 : addr < 256) :
    memWrite s addr v = .ok { s with mem := s.mem.write addr.toNat (trunc8 v) } := by
  simp [memWrite, h0, h1]

@[simp] theorem memWrite_byte (s : State) (p : Byte) (v : Int) :
    memWrite s (p.toNat : Int) v = .ok { s with mem := s.mem.write p.toNat (trunc8 v) } := by
  have := p.isLt
  rw [memWrite_of_range s v (by omega) (by omega), Int.toNat_natCast]

/-! ## Stack -/

theorem stackTop_eq (s : State) : stackTop s = ((s.reg 7).toNat : Int) := rfl

theorem decSp_of_zero (s : State) (h : (s.reg 7).toNat = 0) : decSp s = .error (.outOfRangeAddress (-1)) := by
  have : stackTop s = 0 := by rw [stackTop_eq]; omega
  simp [decSp, this]

theorem popPointer_of_lt {p : Byte} (h : p.toNat < 255) : popPointer p = .ok ((p.toNat : Int) + 1) := by
  have : ¬ ((p.toNat : Int) + 1 ≥ ((Config.memSize : Nat) : Int)) := by simp only [Config.memSize]; omega
  rw [popPointer, if_neg this]

theorem popPointer_of_top {p : Byte} (h : p.toNat = 255) : popPointer p = .error (.outOfRangeAddress 256) := by
  simp [popPointer, h]

/-! ## Fetch -/

theorem fetch_of_le {s : State} (h : s.pc.toNat ≤ 253) :
    fetch s = .ok (s.mem.read s.pc.toNat, s.mem.read (s.pc.toNat + 1), s.mem.read (s.pc.toNat + 2)) := by
  unfold fetch
  rw [memRead_of_range s (by omega) (by omega), memRead_of_range s (by omega) (by omega),
    memRead_of_range s (by omega) (by omega)]
  rfl

theorem fetch_of_gt {s : State} (h : 253 < s.pc.toNat) (h' : s.pc.toNat ≤ 256) :
    fetch s = .error (.outOfRangeAddress 256) := by
  unfold fetch
  rcases (by omega : s.pc.toNat = 254 ∨ s.pc.toNat = 255 ∨ s.pc.toNat = 256) with h | h | h <;> rw [h]
  · rw [memRead_of_range s (by omega) (by omega), memRead_of_range s (by omega) (by omega),
      memRead_out_of_range s (by omega)]
    rfl
  · rw [memRead_of_range s (by omega) (by omega), memRead_out_of_range s (by omega)]
    rfl
  · rw [memRead_out_of_range s (by omega)]
    rfl

end Sys2Proof.Machine
end

