-- ==== Sys2Proof/Laws/Exec.lean ====
section
/-! SUPPORT. What each instruction does on valid operands, what it raises, and the one inversion lemma of `exec`. -/

namespace Sys2Proof.Machine

/-! ## The shared shapes -/

theorem aluR_regByte (f : Byte → Int) (i : RegIdx) (s : State) :
    aluR f (regByte i) s = .ok ((s.setReg i (f (s.reg i))).advance 1) := by
  simp only [aluR, regIndex_regByte, ok_bind, pure_eq_ok]

theorem aluR_invalid (f : Byte → Int) {a : Byte} (h : 7 < a.toNat) (s : State) :
    aluR f a s = .error (.registerIndexOutOfRange a) := by
  simp only [aluR, regIndex_of_invalid h, error_bind]

theorem aluRR_regByte (f : Byte → Byte → Except Cause Int) (i j : RegIdx) (s : State) {v : Int}
    (h : f (s.reg i) (s.reg j) = .ok v) :
    aluRR f (regByte i) (regByte j) s = .ok ((s.setReg i v).advance 2) := by
  simp only [aluRR, regIndex_regByte, ok_bind, pure_eq_ok, h]

theorem aluRR_raise (f : Byte → Byte → Except Cause Int) (i j : RegIdx) (s : State) {c : Cause}
    (h : f (s.reg i) (s.reg j) = .error c) : aluRR f (regByte i) (regByte j) s = .error c := by
  simp only [aluRR, regIndex_regByte, ok_bind, error_bind, h]

theorem aluRR_invalid_a (f : Byte → Byte → Except Cause Int) {a : Byte} (h : 7 < a.toNat) (b : Byte) (s : State) :
    aluRR f a b s = .error (.registerIndexOutOfRange a) := by
  simp only [aluRR, regIndex_of_invalid h, error_bind]

theorem aluRR_invalid_b (f : Byte → Byte → Except Cause Int) (i : RegIdx) {b : Byte} (h : 7 < b.toNat) (s : State) :
    aluRR f (regByte i) b s = .error (.registerIndexOutOfRange b) := by
  simp only [aluRR, regIndex_regByte, regIndex_of_invalid h, ok_bind, error_bind]

/-! ## The instructions on valid operands -/

theorem execPrn_regByte (i : RegIdx) (s : State) :
    execPrn (regByte i) s = .next (State.advance { s with out := s.out ++ [s.reg i] } 1) := by
  simp only [execPrn, regIndex_regByte]; rfl

theorem execLdi_regByte (i : RegIdx) (imm : Byte) (s : State) :
    execLdi (regByte i) imm s = .next ((s.setReg i imm.toNat).advance 2) := by
  simp only [execLdi, regIndex_regByte]; rfl

theorem execCmp_regByte (i j : RegIdx) (s : State) :
    execCmp (regByte i) (regByte j) s = .next ((s.setFlags (compareFlags (s.reg i) (s.reg j))).advance 2) := by
  simp only [execCmp, regIndex_regByte]; rfl

theorem execJmp_regByte (i : RegIdx) (s : State) : execJmp (regByte i) s = .next (s.jump (s.reg i)) := by
  simp only [execJmp, regIndex_regByte]; rfl

theorem execJeq_regByte (i : RegIdx) (s : State) :
    execJeq (regByte i) s = .next (if s.flags.E then s.jump (s.reg i) else s.advance 1) := by
  simp only [execJeq, regIndex_regByte]; rfl

theorem execJne_regByte (i : RegIdx) (s : State) :
    execJne (regByte i) s = .next (if s.flags.E then s.advance 1 else s.jump (s.reg i)) := by
  simp only [execJne, regIndex_regByte]
  change Host.Outcome.next (if !s.flags.E then s.jump (s.reg i) else s.advance 1) = _
  cases s.flags.E <;> rfl

/-- The state after the stack pointer of PUSH and CALL has moved. -/
def decremented (s : State) : State := s.setReg 7 ((s.reg 7).toNat - 1)

theorem decSp_of_pos {s : State} (h : 0 < (s.reg 7).toNat) : decSp s = .ok (decremented s) := by
  have : ¬ (stackTop s - 1 < 0) := by rw [stackTop_eq]; omega
  rw [decSp, if_neg this, stackTop_eq, decremented]

theorem decremented_top {s : State} (h : 0 < (s.reg 7).toNat) :
    ((decremented s).reg 7).toNat = (s.reg 7).toNat - 1 := by
  have hb := (s.reg 7).isLt
  have := trunc8_toNat_of_range (v := ((s.reg 7).toNat : Int) - 1) (by omega) (by omega)
  rw [decremented, State.reg_setReg_self]
  omega

theorem decremented_reg (s : State) {i : RegIdx} (h : i ≠ 7) : (decremented s).reg i = s.reg i := by
  simp [decremented, State.reg_setReg, h]

@[simp] theorem decremented_pc (s : State) : (decremented s).pc = s.pc := rfl
@[simp] theorem decremented_flags (s : State) : (decremented s).flags = s.flags := rfl
@[simp] theorem decremented_mem (s : State) : (decremented s).mem = s.mem := rfl
@[simp] theorem decremented_run (s : State) : (decremented s).run = s.run := rfl
@[simp] theorem decremented_out (s : State) : (decremented s).out = s.out := rfl

/-- The state after PUSH and CALL have stored the byte `v` at `sp - 1`. -/
def pushed (s : State) (v : Byte) : State :=
  { decremented s with mem := s.mem.write ((s.reg 7).toNat - 1) v }

@[simp] theorem pushed_reg (s : State) (v : Byte) (i : RegIdx) : (pushed s v).reg i = (decremented s).reg i := rfl
@[simp] theorem pushed_pc (s : State) (v : Byte) : (pushed s v).pc = s.pc := rfl
@[simp] theorem pushed_flags (s : State) (v : Byte) : (pushed s v).flags = s.flags := rfl
@[simp] theorem pushed_mem (s : State) (v : Byte) : (pushed s v).mem = s.mem.write ((s.reg 7).toNat - 1) v := rfl
@[simp] theorem pushed_run (s : State) (v : Byte) : (pushed s v).run = s.run := rfl
@[simp] theorem pushed_out (s : State) (v : Byte) : (pushed s v).out = s.out := rfl

/-- Storing at the top of the decremented stack. -/
theorem memWrite_decremented {s : State} (h : 0 < (s.reg 7).toNat) (v : Int) :
    memWrite (decremented s) (stackTop (decremented s)) v = .ok (pushed s (trunc8 v)) := by
  rw [stackTop_eq, memWrite_byte, decremented_top h]; rfl

theorem execPush_regByte (i : RegIdx) {s : State} (h : 0 < (s.reg 7).toNat) :
    execPush (regByte i) s = .next ((pushed s ((decremented s).reg i)).advance 1) := by
  simp only [execPush, regIndex_regByte, decSp_of_pos h, memWrite_decremented h, trunc8_toNat_cast, ok_bind, pure_eq_ok,
    perform_ok]

theorem execPush_empty (i : RegIdx) {s : State} (h : (s.reg 7).toNat = 0) :
    execPush (regByte i) s = .next (raise (.outOfRangeAddress (-1)) s) := by
  simp only [execPush, regIndex_regByte, decSp_of_zero s h, ok_bind, error_bind, perform_error]

theorem execCall_regByte (i : RegIdx) {s : State} (h : 0 < (s.reg 7).toNat) :
    execCall (regByte i) s = .next ((pushed s (trunc8 (s.pc.toNat + 2))).jump ((decremented s).reg i)) := by
  simp only [execCall, regIndex_regByte, decSp_of_pos h, memWrite_decremented h, ok_bind, pure_eq_ok, perform_ok,
    pushed_reg]

theorem execCall_empty (i : RegIdx) {s : State} (h : (s.reg 7).toNat = 0) :
    execCall (regByte i) s = .next (raise (.outOfRangeAddress (-1)) s) := by
  simp only [execCall, regIndex_regByte, decSp_of_zero s h, ok_bind, error_bind, perform_error]

/-- What register 7 holds when POP increments it: the popped byte where the operand is register 7. -/
def popBase (i : RegIdx) (s : State) : Byte := if i = 7 then s.mem.read (s.reg 7).toNat else s.reg 7

theorem execPop_regByte (i : RegIdx) {s : State} (h : (popBase i s).toNat < 255) :
    execPop (regByte i) s =
      .next (((s.setReg i (s.mem.read (s.reg 7).toNat).toNat).setReg 7 ((popBase i s).toNat + 1)).advance 1) := by
  have hp : popPointer (if i = 7 then s.mem.read (s.reg 7).toNat else s.reg 7) = .ok ((popBase i s).toNat + 1) :=
    popPointer_of_lt h
  simp only [execPop, regIndex_regByte, stackTop_eq, memRead_byte, ok_bind, State.sp_def, hp, pure_eq_ok, perform_ok]

theorem execPop_full (i : RegIdx) {s : State} (h : (popBase i s).toNat = 255) :
    execPop (regByte i) s = .next (raise (.outOfRangeAddress 256) s) := by
  have hp : popPointer (if i = 7 then s.mem.read (s.reg 7).toNat else s.reg 7) = .error (.outOfRangeAddress 256) :=
    popPointer_of_top h
  simp only [execPop, regIndex_regByte, stackTop_eq, memRead_byte, ok_bind, error_bind, State.sp_def, hp, perform_error]

theorem execRet_of_lt {s : State} (h : (s.reg 7).toNat < 255) :
    execRet s = .next ((s.setReg 7 ((s.reg 7).toNat + 1)).jump (s.mem.read (s.reg 7).toNat)) := by
  simp only [execRet, State.sp_def, popPointer_of_lt h, stackTop_eq, memRead_byte, ok_bind, pure_eq_ok, perform_ok]

theorem execRet_full {s : State} (h : (s.reg 7).toNat = 255) :
    execRet s = .next (raise (.outOfRangeAddress 256) s) := by
  simp only [execRet, State.sp_def, popPointer_of_top h, error_bind, perform_error]

/-! ## Invalid operands -/

/-- The first operand byte that is no register index raises, before anything else of the instruction (R85). -/
theorem exec_of_invalid {i : Instr} {b : Byte} (h : i.indexOperands.find? (fun x => !validIndex x) = some b) (s : State) :
    exec i s = .next (raise (.registerIndexOutOfRange b) s) := by
  have one : ∀ {a : Byte}, [a].find? (fun x => !validIndex x) = some b → b = a ∧ 7 < a.toNat := by
    intro a h
    simp only [List.find?, validIndex] at h
    split at h
    · simp_all; omega
    · cases h
  have two : ∀ {a c : Byte}, [a, c].find? (fun x => !validIndex x) = some b →
      (b = a ∧ 7 < a.toNat) ∨ (∃ j, a = regByte j) ∧ b = c ∧ 7 < c.toNat := by
    intro a c h
    rcases regIndex_cases a with ⟨j, ha, -⟩ | ⟨ha, -⟩
    · subst ha
      refine .inr ⟨⟨j, rfl⟩, one ?_⟩
      simpa [List.find?, validIndex, j.isLt] using h
    · left
      have : ¬ a.toNat < 8 := by omega
      simp [List.find?, validIndex, this] at h
      exact ⟨h.symm, ha⟩
  cases i with
  | nop | hlt | ret => simp [Instr.indexOperands, Instr.mnemonic, Mnemonic.format] at h
  | inc a | dec a | not a =>
    obtain ⟨rfl, ha⟩ := one h
    simp only [exec, execInc, execDec, execNot, aluR_invalid _ ha, perform_error]
  | push a | pop a | prn a | call a | jmp a | jeq a | jne a =>
    obtain ⟨rfl, ha⟩ := one h
    simp only [exec, execPush, execPop, execPrn, execCall, execJmp, execJeq, execJne, regIndex_of_invalid ha]
    rfl
  | ldi a imm =>
    obtain ⟨rfl, ha⟩ := one h
    simp only [exec, execLdi, regIndex_of_invalid ha]
    rfl
  | cmp a c =>
    obtain ⟨rfl, ha⟩ | ⟨⟨j, rfl⟩, rfl, hc⟩ := two h
    · simp only [exec, execCmp, regIndex_of_invalid ha]; rfl
    · simp only [exec, execCmp, regIndex_regByte, regIndex_of_invalid hc]; rfl
  | add a c | sub a c | mul a c | div a c | mod a c | and a c | or a c | xor a c | shl a c | shr a c =>
    obtain ⟨rfl, ha⟩ | ⟨⟨j, rfl⟩, rfl, hc⟩ := two h
    · simp only [exec, execAdd, execSub, execMul, execDiv, execMod, execAnd, execOr, execXor, execShl, execShr,
        aluRR_invalid_a _ ha, perform_error]
    · simp only [exec, execAdd, execSub, execMul, execDiv, execMod, execAnd, execOr, execXor, execShl, execShr,
        aluRR_invalid_b _ _ hc, perform_error]

/-! ## The inversion lemma -/

/-- The mnemonics whose effect is to write one register with a value the ALU or the literal gives. -/
def aluMnemonics : List Mnemonic :=
  [.inc, .dec, .not, .ldi, .add, .sub, .mul, .div, .mod, .and, .or, .xor, .shl, .shr]

/-- What an instruction does at the state `s` when it raises nothing. -/
inductive Effect (s : State) : Instr → State → Prop where
  | nop : Effect s .nop (s.advance 0)
  | hlt : Effect s .hlt { s with run := .halted }
  | prn (i : RegIdx) : Effect s (.prn (regByte i)) (State.advance { s with out := s.out ++ [s.reg i] } 1)
  | alu {ins : Instr} (i : RegIdx) (v : Int) (h : ins.mnemonic ∈ aluMnemonics)
      (ha : ins.operands.head? = some (regByte i)) : Effect s ins ((s.setReg i v).advance ins.mnemonic.operandCount)
  | cmp (i j : RegIdx) :
      Effect s (.cmp (regByte i) (regByte j)) ((s.setFlags (compareFlags (s.reg i) (s.reg j))).advance 2)
  | jmp (i : RegIdx) : Effect s (.jmp (regByte i)) (s.jump (s.reg i))
  | jeq (i : RegIdx) : Effect s (.jeq (regByte i)) (if s.flags.E then s.jump (s.reg i) else s.advance 1)
  | jne (i : RegIdx) : Effect s (.jne (regByte i)) (if s.flags.E then s.advance 1 else s.jump (s.reg i))
  | push (i : RegIdx) (h : 0 < (s.reg 7).toNat) :
      Effect s (.push (regByte i)) ((pushed s ((decremented s).reg i)).advance 1)
  | pop (i : RegIdx) (h : (popBase i s).toNat < 255) :
      Effect s (.pop (regByte i))
        (((s.setReg i (s.mem.read (s.reg 7).toNat).toNat).setReg 7 ((popBase i s).toNat + 1)).advance 1)
  | call (i : RegIdx) (h : 0 < (s.reg 7).toNat) :
      Effect s (.call (regByte i)) ((pushed s (trunc8 (s.pc.toNat + 2))).jump ((decremented s).reg i))
  | ret (h : (s.reg 7).toNat < 255) :
      Effect s .ret ((s.setReg 7 ((s.reg 7).toNat + 1)).jump (s.mem.read (s.reg 7).toNat))

/-- What an instruction can raise at the state `s` in operand validation or EXECUTE, and where. -/
inductive Raises (s : State) : Instr → Cause → Prop where
  | index {ins : Instr} (b : Byte) (h : ins.indexOperands.find? (fun x => !validIndex x) = some b) (hb : 7 < b.toNat) :
      Raises s ins (.registerIndexOutOfRange b)
  | div (i j : RegIdx) (h : (s.reg j).toNat = 0) : Raises s (.div (regByte i) (regByte j)) .divideByZero
  | mod (i j : RegIdx) (h : (s.reg j).toNat = 0) : Raises s (.mod (regByte i) (regByte j)) .divideByZero
  | push (i : RegIdx) (h : (s.reg 7).toNat = 0) : Raises s (.push (regByte i)) (.outOfRangeAddress (-1))
  | call (i : RegIdx) (h : (s.reg 7).toNat = 0) : Raises s (.call (regByte i)) (.outOfRangeAddress (-1))
  | pop (i : RegIdx) (h : (popBase i s).toNat = 255) : Raises s (.pop (regByte i)) (.outOfRangeAddress 256)
  | ret (h : (s.reg 7).toNat = 255) : Raises s .ret (.outOfRangeAddress 256)

theorem indexOperands_F1R_invalid {ins : Instr} {a : Byte} (hops : ins.indexOperands = [a]) (ha : 7 < a.toNat) (s : State) :
    Raises s ins (.registerIndexOutOfRange a) := by
  refine .index a ?_ ha
  have : ¬ a.toNat < 8 := by omega
  simp [hops, validIndex, this]

theorem indexOperands_F2RR_invalid_b {ins : Instr} {j : RegIdx} {c : Byte} (hops : ins.indexOperands = [regByte j, c])
    (hc : 7 < c.toNat) (s : State) : Raises s ins (.registerIndexOutOfRange c) := by
  refine .index c ?_ hc
  have : ¬ c.toNat < 8 := by omega
  simp [hops, validIndex, this, j.isLt]

theorem indexOperands_F2RR_invalid_a {ins : Instr} {a c : Byte} (hops : ins.indexOperands = [a, c])
    (ha : 7 < a.toNat) (s : State) : Raises s ins (.registerIndexOutOfRange a) := by
  refine .index a ?_ ha
  have : ¬ a.toNat < 8 := by omega
  simp [hops, validIndex, this]

/-- A one-register ALU instruction writes its register or has an invalid operand. -/
theorem exec_cases_aluR {ins : Instr} {f : Byte → Int} {a : Byte} (hx : ∀ s, exec ins s = perform s (aluR f a s))
    (hm : ins.mnemonic ∈ aluMnemonics) (hn : ins.mnemonic.operandCount = 1) (ho : ins.operands = [a])
    (hi : ins.indexOperands = [a]) (s : State) :
    (∃ t, exec ins s = .next t ∧ Effect s ins t) ∨ ∃ c, exec ins s = .next (raise c s) ∧ Raises s ins c := by
  rw [hx]
  obtain ⟨i, rfl, -⟩ | ⟨ha, -⟩ := regIndex_cases a
  · rw [aluR_regByte]
    have h := Effect.alu (s := s) i (f (s.reg i)) hm (by rw [ho]; rfl)
    rw [hn] at h
    exact .inl ⟨_, rfl, h⟩
  · rw [aluR_invalid f ha]
    exact .inr ⟨_, rfl, indexOperands_F1R_invalid hi ha s⟩

/-- A two-register ALU instruction writes its register, divides by zero, or has an invalid operand. -/
theorem exec_cases_aluRR {ins : Instr} {f : Byte → Byte → Except Cause Int} {a b : Byte} (s : State)
    (hx : ∀ s, exec ins s = perform s (aluRR f a b s)) (hm : ins.mnemonic ∈ aluMnemonics)
    (hn : ins.mnemonic.operandCount = 2) (ho : ins.operands = [a, b]) (hi : ins.indexOperands = [a, b])
    (hf : ∀ i j, a = regByte i → b = regByte j →
      (∃ v, f (s.reg i) (s.reg j) = .ok v) ∨ ∃ c, f (s.reg i) (s.reg j) = .error c ∧ Raises s ins c) :
    (∃ t, exec ins s = .next t ∧ Effect s ins t) ∨ ∃ c, exec ins s = .next (raise c s) ∧ Raises s ins c := by
  rw [hx]
  obtain ⟨i, ha, -⟩ | ⟨ha, -⟩ := regIndex_cases a
  · obtain ⟨j, hb, -⟩ | ⟨hb, -⟩ := regIndex_cases b
    · rw [ha, hb]
      obtain ⟨v, hv⟩ | ⟨c, hc, hr⟩ := hf i j ha hb
      · rw [aluRR_regByte f i j s hv]
        have h := Effect.alu (s := s) i v hm (by rw [ho, ha]; rfl)
        rw [hn] at h
        exact .inl ⟨_, rfl, h⟩
      · rw [aluRR_raise f i j s hc]
        exact .inr ⟨_, rfl, hr⟩
    · rw [ha, aluRR_invalid_b f i hb]
      exact .inr ⟨_, rfl, indexOperands_F2RR_invalid_b (ha ▸ hi) hb s⟩
  · rw [aluRR_invalid_a f ha]
    exact .inr ⟨_, rfl, indexOperands_F2RR_invalid_a hi ha s⟩

/-- Everything `exec` can answer: the instruction's effect, or the state with nothing but `run` changed by a condition the
instruction can raise. -/
theorem exec_cases (ins : Instr) (s : State) :
    (∃ t, exec ins s = .next t ∧ Effect s ins t) ∨ ∃ c, exec ins s = .next (raise c s) ∧ Raises s ins c := by
  have bad : ∀ {b : Byte}, Raises s ins (.registerIndexOutOfRange b) →
      ∃ c, exec ins s = .next (raise c s) ∧ Raises s ins c := by
    intro b h
    refine ⟨_, ?_, h⟩
    cases h with
    | index _ h hb => exact exec_of_invalid h s
  have hb7 := (s.reg 7).isLt
  cases ins with
  | nop => exact .inl ⟨_, rfl, .nop⟩
  | hlt => exact .inl ⟨_, rfl, .hlt⟩
  | ret =>
    rcases (by omega : (s.reg 7).toNat < 255 ∨ (s.reg 7).toNat = 255) with h | h
    · exact .inl ⟨_, execRet_of_lt h, .ret h⟩
    · exact .inr ⟨_, execRet_full h, .ret h⟩
  | push a =>
    obtain ⟨i, rfl, -⟩ | ⟨ha, -⟩ := regIndex_cases a
    · rcases (by omega : 0 < (s.reg 7).toNat ∨ (s.reg 7).toNat = 0) with h | h
      · exact .inl ⟨_, execPush_regByte i h, .push i h⟩
      · exact .inr ⟨_, execPush_empty i h, .push i h⟩
    · exact .inr (bad (indexOperands_F1R_invalid rfl ha s))
  | pop a =>
    obtain ⟨i, rfl, -⟩ | ⟨ha, -⟩ := regIndex_cases a
    · have hp := (popBase i s).isLt
      rcases (by omega : (popBase i s).toNat < 255 ∨ (popBase i s).toNat = 255) with h | h
      · exact .inl ⟨_, execPop_regByte i h, .pop i h⟩
      · exact .inr ⟨_, execPop_full i h, .pop i h⟩
    · exact .inr (bad (indexOperands_F1R_invalid rfl ha s))
  | call a =>
    obtain ⟨i, rfl, -⟩ | ⟨ha, -⟩ := regIndex_cases a
    · rcases (by omega : 0 < (s.reg 7).toNat ∨ (s.reg 7).toNat = 0) with h | h
      · exact .inl ⟨_, execCall_regByte i h, .call i h⟩
      · exact .inr ⟨_, execCall_empty i h, .call i h⟩
    · exact .inr (bad (indexOperands_F1R_invalid rfl ha s))
  | prn a =>
    obtain ⟨i, rfl, -⟩ | ⟨ha, -⟩ := regIndex_cases a
    · exact .inl ⟨_, execPrn_regByte i s, .prn i⟩
    · exact .inr (bad (indexOperands_F1R_invalid rfl ha s))
  | jmp a =>
    obtain ⟨i, rfl, -⟩ | ⟨ha, -⟩ := regIndex_cases a
    · exact .inl ⟨_, execJmp_regByte i s, .jmp i⟩
    · exact .inr (bad (indexOperands_F1R_invalid rfl ha s))
  | jeq a =>
    obtain ⟨i, rfl, -⟩ | ⟨ha, -⟩ := regIndex_cases a
    · exact .inl ⟨_, execJeq_regByte i s, .jeq i⟩
    · exact .inr (bad (indexOperands_F1R_invalid rfl ha s))
  | jne a =>
    obtain ⟨i, rfl, -⟩ | ⟨ha, -⟩ := regIndex_cases a
    · exact .inl ⟨_, execJne_regByte i s, .jne i⟩
    · exact .inr (bad (indexOperands_F1R_invalid rfl ha s))
  | ldi a imm =>
    obtain ⟨i, rfl, -⟩ | ⟨ha, -⟩ := regIndex_cases a
    · exact .inl ⟨_, execLdi_regByte i imm s, .alu i _ (List.mem_of_elem_eq_true rfl) rfl⟩
    · exact .inr (bad (indexOperands_F1R_invalid rfl ha s))
  | cmp a c =>
    obtain ⟨i, rfl, -⟩ | ⟨ha, -⟩ := regIndex_cases a
    · obtain ⟨j, rfl, -⟩ | ⟨hc, -⟩ := regIndex_cases c
      · exact .inl ⟨_, execCmp_regByte i j s, .cmp i j⟩
      · exact .inr (bad (indexOperands_F2RR_invalid_b rfl hc s))
    · exact .inr (bad (indexOperands_F2RR_invalid_a rfl ha s))
  | inc a | dec a | not a => exact exec_cases_aluR (fun _ => rfl) (List.mem_of_elem_eq_true rfl) rfl rfl rfl s
  | add a c | sub a c | mul a c | and a c | or a c | xor a c | shl a c | shr a c =>
    exact exec_cases_aluRR s (fun _ => rfl) (List.mem_of_elem_eq_true rfl) rfl rfl rfl fun i j _ _ => .inl ⟨_, rfl⟩
  | div a c =>
    refine exec_cases_aluRR s (fun _ => rfl) (List.mem_of_elem_eq_true rfl) rfl rfl rfl fun i j ha hc => ?_
    by_cases hz : (s.reg j).toNat = 0
    · exact .inr ⟨.divideByZero, by rw [aluDiv, if_pos hz], ha ▸ hc ▸ .div i j hz⟩
    · exact .inl ⟨_, by rw [aluDiv, if_neg hz]⟩
  | mod a c =>
    refine exec_cases_aluRR s (fun _ => rfl) (List.mem_of_elem_eq_true rfl) rfl rfl rfl fun i j ha hc => ?_
    by_cases hz : (s.reg j).toNat = 0
    · exact .inr ⟨.divideByZero, by rw [aluMod, if_pos hz], ha ▸ hc ▸ .mod i j hz⟩
    · exact .inl ⟨_, by rw [aluMod, if_neg hz]⟩

/-- `exec` inverted: the state it answers is the effect's, or a raise of a condition the instruction can raise. -/
theorem exec_next_cases {ins : Instr} {s t : State} (h : exec ins s = .next t) :
    Effect s ins t ∨ ∃ c, Raises s ins c ∧ t = raise c s := by
  obtain ⟨u, hu, he⟩ | ⟨c, hc, hr⟩ := exec_cases ins s
  · rw [h] at hu
    cases hu
    exact .inl he
  · rw [h] at hc
    cases hc
    exact .inr ⟨c, hr, rfl⟩

/-- An effect leaves the run state alone, but for HLT. -/
theorem Effect.run_eq {ins : Instr} {s t : State} (h : Effect s ins t) : t.run = s.run ∨ (ins = .hlt ∧ t.run = .halted) := by
  cases h with
  | hlt => exact .inr ⟨rfl, rfl⟩
  | jeq | jne => left; split <;> rfl
  | _ => exact .inl rfl

/-- EXECUTE always answers a next state: no instruction stops. -/
theorem exec_answers_next (ins : Instr) (s : State) : ∃ t, exec ins s = .next t := by
  obtain ⟨t, ht, -⟩ | ⟨c, hc, -⟩ := exec_cases ins s
  · exact ⟨t, ht⟩
  · exact ⟨_, hc⟩

end Sys2Proof.Machine
end

