-- ==== Sys2Proof/Laws/PerInstr.lean ====
section
/-! SUPPORT. Facts about every instruction as syntax, one lemma per constructor. -/

namespace Sys2Proof.Laws

/-- An instruction is assembled again from its mnemonic and its operand bytes, in whatever bytes follow them. -/
def Reassemble.Statement (i : Instr) : Prop :=
  ∀ rest : List Byte, i.mnemonic.assemble ((i.operands ++ rest).getD 0 0) ((i.operands ++ rest).getD 1 0) = i

theorem Reassemble.nop : Reassemble.Statement .nop := fun _ => rfl
theorem Reassemble.hlt : Reassemble.Statement .hlt := fun _ => rfl
theorem Reassemble.ret : Reassemble.Statement .ret := fun _ => rfl
theorem Reassemble.push (a : Byte) : Reassemble.Statement (.push a) := fun _ => rfl
theorem Reassemble.pop (a : Byte) : Reassemble.Statement (.pop a) := fun _ => rfl
theorem Reassemble.prn (a : Byte) : Reassemble.Statement (.prn a) := fun _ => rfl
theorem Reassemble.call (a : Byte) : Reassemble.Statement (.call a) := fun _ => rfl
theorem Reassemble.jmp (a : Byte) : Reassemble.Statement (.jmp a) := fun _ => rfl
theorem Reassemble.jeq (a : Byte) : Reassemble.Statement (.jeq a) := fun _ => rfl
theorem Reassemble.jne (a : Byte) : Reassemble.Statement (.jne a) := fun _ => rfl
theorem Reassemble.inc (a : Byte) : Reassemble.Statement (.inc a) := fun _ => rfl
theorem Reassemble.dec (a : Byte) : Reassemble.Statement (.dec a) := fun _ => rfl
theorem Reassemble.not (a : Byte) : Reassemble.Statement (.not a) := fun _ => rfl
theorem Reassemble.ldi (a imm : Byte) : Reassemble.Statement (.ldi a imm) := fun _ => rfl
theorem Reassemble.add (a b : Byte) : Reassemble.Statement (.add a b) := fun _ => rfl
theorem Reassemble.sub (a b : Byte) : Reassemble.Statement (.sub a b) := fun _ => rfl
theorem Reassemble.mul (a b : Byte) : Reassemble.Statement (.mul a b) := fun _ => rfl
theorem Reassemble.div (a b : Byte) : Reassemble.Statement (.div a b) := fun _ => rfl
theorem Reassemble.mod (a b : Byte) : Reassemble.Statement (.mod a b) := fun _ => rfl
theorem Reassemble.cmp (a b : Byte) : Reassemble.Statement (.cmp a b) := fun _ => rfl
theorem Reassemble.and (a b : Byte) : Reassemble.Statement (.and a b) := fun _ => rfl
theorem Reassemble.or (a b : Byte) : Reassemble.Statement (.or a b) := fun _ => rfl
theorem Reassemble.xor (a b : Byte) : Reassemble.Statement (.xor a b) := fun _ => rfl
theorem Reassemble.shl (a b : Byte) : Reassemble.Statement (.shl a b) := fun _ => rfl
theorem Reassemble.shr (a b : Byte) : Reassemble.Statement (.shr a b) := fun _ => rfl

end Sys2Proof.Laws
end

