-- ==== Sys2Proof/Laws/Step.lean ====
section
/-! SUPPORT. What a step can do: its three cases by run state, what fetching answers, and the inversion lemma. -/

namespace Sys2Proof.Machine

@[simp] theorem step_eq_cycle (s : State) : step s = cycle defaultOpMap s := rfl

/-! ## Fetching -/

/-- Where three bytes exist at `pc`, fetching decodes them. -/
theorem fetchDecode_of_le {M : OpMap} {s : State} (h : s.pc.toNat ≤ 253) :
    fetchDecode M s = match lookup M (s.mem.read s.pc.toNat) with
      | some m => .ok (m.assemble (s.mem.read (s.pc.toNat + 1)) (s.mem.read (s.pc.toNat + 2)))
      | none => .error (.illegalOpcode (s.mem.read s.pc.toNat)) := by
  simp only [fetchDecode, fetch_of_le h, ok_bind, decode]
  cases lookup M (s.mem.read s.pc.toNat) <;> rfl

theorem fetchDecode_of_gt {M : OpMap} {s : State} (h : 253 < s.pc.toNat) (h' : s.pc.toNat ≤ 256) :
    fetchDecode M s = .error (.outOfRangeAddress 256) := by
  simp only [fetchDecode, fetch_of_gt h h', error_bind]

/-- A fetch that raises nothing read three existing bytes. -/
theorem pc_le_of_fetchDecode {M : OpMap} {s : State} {i : Instr} (h : fetchDecode M s = .ok i) : s.pc.toNat ≤ 253 := by
  by_contra hc
  have hb : (253 : Int) < s.pc.toNat := by omega
  unfold fetchDecode fetch at h
  have h2 : memRead s ((s.pc.toNat : Int) + 2) = .error (.outOfRangeAddress ((s.pc.toNat : Int) + 2)) :=
    memRead_out_of_range s (by omega)
  rw [h2] at h
  cases h0 : memRead s (s.pc.toNat : Int) <;> cases h1 : memRead s ((s.pc.toNat : Int) + 1) <;>
    simp [h0, h1] at h

/-- The instruction fetched is made of the bytes at `pc`. -/
theorem fetchDecode_eq_ok {M : OpMap} {s : State} {i : Instr} (h : fetchDecode M s = .ok i) :
    s.pc.toNat ≤ 253 ∧ ∃ m, lookup M (s.mem.read s.pc.toNat) = some m ∧
      i = m.assemble (s.mem.read (s.pc.toNat + 1)) (s.mem.read (s.pc.toNat + 2)) := by
  have hp := pc_le_of_fetchDecode h
  refine ⟨hp, ?_⟩
  rw [fetchDecode_of_le hp] at h
  cases hl : lookup M (s.mem.read s.pc.toNat) with
  | none => simp [hl] at h
  | some m =>
    simp only [hl] at h
    cases h
    exact ⟨m, rfl, rfl⟩

/-! ## The cycle by run state -/

theorem cycle_halted {M : OpMap} {s : State} (h : s.run = .halted) : cycle M s = .fault .halted := by simp [cycle, h]

theorem cycle_faulted {M : OpMap} {s : State} {c : Cause} (h : s.run = .faulted c) : cycle M s = .fault (.faulted c) := by
  simp [cycle, h]

theorem cycle_raise {M : OpMap} {s : State} {c : Cause} (h : s.run = .running) (hf : fetchDecode M s = .error c) :
    cycle M s = .next (raise c s) := by
  simp [cycle, h, hf]

theorem cycle_exec {M : OpMap} {s : State} {i : Instr} (h : s.run = .running) (hf : fetchDecode M s = .ok i) :
    cycle M s = exec i s := by
  simp [cycle, h, hf]

/-- A step that answers a next state inverted. -/
theorem cycle_next_cases {M : OpMap} {s t : State} (h : cycle M s = .next t) :
    s.run = .running ∧
      ((∃ c, fetchDecode M s = .error c ∧ t = raise c s) ∨ ∃ i, fetchDecode M s = .ok i ∧ exec i s = .next t) := by
  cases hr : s.run with
  | halted => rw [cycle_halted hr] at h; cases h
  | faulted c => rw [cycle_faulted hr] at h; cases h
  | running =>
    refine ⟨rfl, ?_⟩
    cases hf : fetchDecode M s with
    | error c =>
      rw [cycle_raise hr hf] at h
      cases h
      exact .inl ⟨c, rfl, rfl⟩
    | ok i =>
      rw [cycle_exec hr hf] at h
      exact .inr ⟨i, rfl, h⟩

/-! ## Runs of the host's interface -/

theorem run_succ_next (M : Host.Core) {s t : M.State} (k : Nat) (h : M.step s = .next t) : M.run (k + 1) s = M.run k t := by
  rw [Host.Core.run, h]

theorem run_succ_cases (M : Host.Core) {s t : M.State} {k : Nat} (h : M.run (k + 1) s = .next t) :
    ∃ u, M.step s = .next u ∧ M.run k u = .next t := by
  rw [Host.Core.run] at h
  cases hs : M.step s with
  | next u => rw [hs] at h; exact ⟨u, rfl, h⟩
  | fault r => rw [hs] at h; cases h
  | refused r => rw [hs] at h; cases h

/-- A run whose first step answers `t` goes on from `t`. -/
theorem core_run_succ_next {s t : State} (k : Nat) (h : step s = .next t) :
    Sys2Proof.core.run (k + 1) s = Sys2Proof.core.run k t :=
  run_succ_next Sys2Proof.core k h

/-- A run of more than no steps that answers a state made its first step. -/
theorem core_run_succ_cases {s t : State} {k : Nat} (h : Sys2Proof.core.run (k + 1) s = .next t) :
    ∃ u, step s = .next u ∧ Sys2Proof.core.run k u = .next t := by
  obtain ⟨u, h1, h2⟩ := run_succ_cases Sys2Proof.core h
  exact ⟨u, h1, h2⟩

end Sys2Proof.Machine
end

