-- ==== Sys2Proof/Machine/Loader.lean ====
section
/-! DEFINITION. The host's loader at its boundary (R72): the text format of a program image. The spec's scope leaves the loader
itself out (R5 a); the machine never runs any of this, it sees only the bytes (R220). -/

namespace Sys2Proof.Machine

/-- What separates the leading token from what follows (log entry 10). -/
def isBlank (c : Char) : Bool := c == ' ' || c == '\t' || c == '\r'

/-- The lines of a text, without their line ends. -/
def splitLines : List Char → List (List Char)
  | [] => [[]]
  | c :: rest =>
    if c = '\n' then [] :: splitLines rest
    else
      match splitLines rest with
      | [] => [[c]]
      | line :: lines => (c :: line) :: lines

/-- The leading token of a line: up to a blank or the `#` of a comment. -/
def leadingToken (line : List Char) : List Char := (line.dropWhile isBlank).takeWhile fun c => !isBlank c && c != '#'

/-- The value of binary digits after the value `acc` of the digits before them. -/
def binaryValue : Nat → List Char → Option Nat
  | acc, [] => some acc
  | acc, '0' :: rest => binaryValue (2 * acc) rest
  | acc, '1' :: rest => binaryValue (2 * acc + 1) rest
  | _, _ :: _ => none

/-- The byte of one line, "exactly one byte 0–255 expected"; `none` where the line is blank, a comment or malformed
(R72, R220; a literal above 255 is malformed: log entry 10). -/
def lineByte (line : List Char) : Option Byte :=
  match leadingToken line with
  | [] => none
  | token =>
    match binaryValue 0 token with
    | some v => if v < 256 then some (BitVec.ofNat 8 v) else none
    | none => none

/-- The bytes of a program image text in file order; the lines without a byte are skipped (R72). -/
def parseImage (text : List Char) : List Byte := (splitLines text).filterMap lineByte

/-- Parse a program image text and load it (R72, R232, R233). -/
def loadText (text : List Char) : Option State := loadProgram (parseImage text)

end Sys2Proof.Machine
end

