-- ==== Sys2Proof/Tests/Slice0.lean ====
section
/-! SUPPORT. Tests on one step each, their expected results taken from the rules and test vectors of spec/ (named V-... as in
95_test_vectors.md), and for every statement with hypotheses a witness that meets them. -/

namespace Sys2Proof.Tests

open Sys2Proof Sys2Proof.Machine

/-- The reset state with code at address 0. -/
def load (code : List Byte) : State := State.resetWith (Memory.place code 0)

/-- The next state, where there is one. -/
def after (r : Result) : Option State :=
  match r with
  | .next t => some t
  | .fault _ => none
  | .refused _ => none

/-- One step's registers 0 and 7 and program counter. -/
def outcome (s : State) : Option (Byte × Byte × PcWord) := (after (step s)).map fun t => (t.reg 0, t.sp, t.pc)

/-- One step's run state. -/
def runAfter (s : State) : Option RunState := (after (step s)).map (·.run)

/-! ## Well-formedness: a term that each check refuses -/

theorem test_wf_refuses_operand_a : (Instr.push 8).wf = false := by decide
theorem test_wf_refuses_first_of_two : (Instr.add 255 0).wf = false := by decide
theorem test_wf_refuses_operand_b : (Instr.add 0 8).wf = false := by decide
theorem test_wf_refuses_index_of_ldi : (Instr.ldi 8 0).wf = false := by decide
theorem test_wf_literal_is_not_checked : (Instr.ldi 7 255).wf = true := by decide
theorem test_wf_accepts_register_7 : (Instr.shr 7 7).wf = true := by decide

/-! ## Decoding: a word for every constructor, written from R65 and R62 -/

theorem test_decode_F0 :
    decode defaultOpMap 0b00000000 0xFF 0xFF = .ok .nop ∧ decode defaultOpMap 0b00000001 0xFF 0xFF = .ok .hlt ∧
    decode defaultOpMap 0b00010001 0xFF 0xFF = .ok .ret := ⟨rfl, rfl, rfl⟩
theorem test_decode_stack_and_print :
    decode defaultOpMap 0b01000101 0b00000110 0xFF = .ok (.push 6) ∧
    decode defaultOpMap 0b01000110 0b00000101 0xFF = .ok (.pop 5) ∧
    decode defaultOpMap 0b01000111 0b00000111 0xFF = .ok (.prn 7) := ⟨rfl, rfl, rfl⟩
theorem test_decode_control_flow :
    decode defaultOpMap 0b01010000 0b00000001 0xFF = .ok (.call 1) ∧
    decode defaultOpMap 0b01010100 0b00000010 0xFF = .ok (.jmp 2) ∧
    decode defaultOpMap 0b01010101 0b00000011 0xFF = .ok (.jeq 3) ∧
    decode defaultOpMap 0b01010110 0b00000100 0xFF = .ok (.jne 4) := ⟨rfl, rfl, rfl, rfl⟩
theorem test_decode_one_register :
    decode defaultOpMap 0b01100101 0b00000001 0xFF = .ok (.inc 1) ∧
    decode defaultOpMap 0b01100110 0b00000010 0xFF = .ok (.dec 2) ∧
    decode defaultOpMap 0b01101001 0b00000011 0xFF = .ok (.not 3) := ⟨rfl, rfl, rfl⟩
theorem test_decode_ldi : decode defaultOpMap 0b10000010 0b00000011 0b11111111 = .ok (.ldi 3 255) := rfl
theorem test_decode_arithmetic :
    decode defaultOpMap 0b10100000 0b00000001 0b00000010 = .ok (.add 1 2) ∧
    decode defaultOpMap 0b10100001 0b00000001 0b00000010 = .ok (.sub 1 2) ∧
    decode defaultOpMap 0b10100010 0b00000001 0b00000010 = .ok (.mul 1 2) ∧
    decode defaultOpMap 0b10100011 0b00000001 0b00000010 = .ok (.div 1 2) ∧
    decode defaultOpMap 0b10100100 0b00000001 0b00000010 = .ok (.mod 1 2) ∧
    decode defaultOpMap 0b10100111 0b00000001 0b00000010 = .ok (.cmp 1 2) := ⟨rfl, rfl, rfl, rfl, rfl, rfl⟩
theorem test_decode_logic :
    decode defaultOpMap 0b10101000 0b00000101 0b00000110 = .ok (.and 5 6) ∧
    decode defaultOpMap 0b10101010 0b00000101 0b00000110 = .ok (.or 5 6) ∧
    decode defaultOpMap 0b10101011 0b00000101 0b00000110 = .ok (.xor 5 6) ∧
    decode defaultOpMap 0b10101100 0b00000101 0b00000110 = .ok (.shl 5 6) ∧
    decode defaultOpMap 0b10101101 0b00000101 0b00000110 = .ok (.shr 5 6) := ⟨rfl, rfl, rfl, rfl, rfl⟩
/-- V-ILL -/
theorem test_decode_refuses_illegal_bytes :
    [0x02, 0x13, 0x48, 0x52, 0x57, 0x58, 0x59, 0x5A, 0x83, 0x84, 0xA5, 0xA6, 0xA9, 0xC0, 0xFF].all
      (fun ir => lookup defaultOpMap ir == none) = true := by decide
theorem test_decode_list_truncated : decodeBytes defaultOpMap [0x82, 0x00] = .error .truncated := rfl
theorem test_table_word_lays_out_the_first_byte_low : decodeTableWord 24 0x080082 = some (.ldi 0 8) := by decide

/-! ## System -/

/-- V-HLTIGN -/
theorem test_hlt_stays : (after (step (load [0x01, 0xFF, 0xFF]))).map (fun t => (t.run, t.pc)) = some (.halted, 0) := by decide
theorem test_hlt_has_no_step_after : after (step { load [0x01] with run := .halted }) = none := by decide
/-- V-ADV0 -/
theorem test_nop_ignores_what_follows : outcome (load [0x00, 0xFF, 0xFF]) = some (0, 0xF4, 1) := by decide
/-- V-F253b -/
theorem test_nop_at_253 : outcome { State.reset with pc := 253 } = some (0, 0xF4, 254) := by decide
/-- V-PRN7 -/
theorem test_prn_prints_the_stack_pointer : (after (step (load [0x47, 0x07]))).map (·.out) = some [244] := by decide
/-- V-PRN8 -/
theorem test_prn_8_raises : runAfter (load [0x47, 0x08]) = some (.faulted (.registerIndexOutOfRange 8)) := by decide

/-! ## Data and stack -/

/-- V-LDI -/
theorem test_ldi : outcome (load [0x82, 0x00, 0x08]) = some (8, 0xF4, 3) := by decide
/-- V-LDI7 -/
theorem test_ldi_sets_the_stack_pointer : outcome (load [0x82, 0x07, 0x80]) = some (0, 0x80, 3) := by decide
/-- V-PUSH7 -/
theorem test_push_7_stores_the_decremented_pointer :
    (after (step (load [0x45, 0x07]))).map (fun t => (t.sp, t.mem.read 0xF3, t.pc)) = some (0xF3, 0xF3, 2) := by decide
/-- V-PUSH8: the index is checked before the stack. -/
theorem test_push_8_with_empty_stack_pointer :
    runAfter ((load [0x45, 0x08]).setReg 7 0) = some (.faulted (.registerIndexOutOfRange 8)) := by decide
/-- V-POP7 -/
theorem test_pop_7_increments_the_popped_byte :
    outcome ({ load [0x46, 0x07] with mem := (load [0x46, 0x07]).mem.write 0xF3 0x20 }.setReg 7 0xF3) =
      some (0, 0x21, 2) := by decide
/-- V-POP255 -/
theorem test_pop_at_255_raises :
    (after (step ((load [0x46, 0x00]).setReg 7 255))).map (fun t => (t.run, t.sp, t.pc)) =
      some (.faulted (.outOfRangeAddress 256), 255, 0) := by decide

/-! ## Arithmetic -/

/-- V-ADD2, on the registers 0 and 1. -/
def with01 (code : List Byte) (p q : Int) : State := ((load code).setReg 0 p).setReg 1 q

theorem test_add_wraps : outcome (with01 [0xA0, 0, 1] 200 100) = some (44, 0xF4, 3) := by decide
/-- V-ADD4 -/
theorem test_add_to_itself : outcome (with01 [0xA0, 0, 0] 128 9) = some (0, 0xF4, 3) := by decide
/-- V-SUB2 -/
theorem test_sub_wraps : outcome (with01 [0xA1, 0, 1] 5 9) = some (252, 0xF4, 3) := by decide
/-- V-MUL3 -/
theorem test_mul_keeps_the_low_byte : outcome (with01 [0xA2, 0, 1] 255 255) = some (1, 0xF4, 3) := by decide
/-- V-DIV2 -/
theorem test_div_is_unsigned : outcome (with01 [0xA3, 0, 1] 255 2) = some (127, 0xF4, 3) := by decide
/-- V-DIV9 -/
theorem test_div_checks_the_index_before_the_divisor :
    runAfter (with01 [0xA3, 0, 9] 0 0) = some (.faulted (.registerIndexOutOfRange 9)) := by decide
/-- V-MOD5 -/
theorem test_mod_is_unsigned : outcome (with01 [0xA4, 0, 1] 250 7) = some (5, 0xF4, 3) := by decide
/-- V-MOD0 -/
theorem test_mod_by_zero :
    (after (step (with01 [0xA4, 0, 1] 5 0))).map (fun t => (t.run, t.reg 0, t.pc)) =
      some (.faulted .divideByZero, 5, 0) := by decide
/-- V-INC2 -/
theorem test_inc_wraps : outcome (with01 [0x65, 0] 255 0) = some (0, 0xF4, 2) := by decide
/-- V-DEC7 -/
theorem test_dec_wraps_the_stack_pointer : outcome ((load [0x66, 7]).setReg 7 0) = some (0, 255, 2) := by decide

/-! ## Bitwise and shifts -/

/-- V-AND, V-OR, V-XOR -/
theorem test_and_or_xor :
    outcome (with01 [0xA8, 0, 1] 0xCC 0xAA) = some (0x88, 0xF4, 3) ∧
    outcome (with01 [0xAA, 0, 1] 0xCC 0xAA) = some (0xEE, 0xF4, 3) ∧
    outcome (with01 [0xAB, 0, 1] 0xCC 0xAA) = some (0x66, 0xF4, 3) := by decide
/-- V-NOT1 -/
theorem test_not : outcome (with01 [0x69, 0] 0xA5 0) = some (0x5A, 0xF4, 2) := by decide
/-- V-SHL6: the amount is not taken modulo 8. -/
theorem test_shl_by_255 : outcome (with01 [0xAC, 0, 1] 0xFF 255) = some (0, 0xF4, 3) := by decide
/-- V-SHL7 -/
theorem test_shl_by_itself : outcome (with01 [0xAC, 0, 0] 3 0) = some (24, 0xF4, 3) := by decide
/-- V-SHR1 -/
theorem test_shr_is_logical : outcome (with01 [0xAD, 0, 1] 0x81 1) = some (0x40, 0xF4, 3) := by decide
/-- V-SHR4 -/
theorem test_shr_by_8 : outcome (with01 [0xAD, 0, 1] 0xFF 8) = some (0, 0xF4, 3) := by decide

/-! ## Compare, jumps, subroutines -/

/-- V-CMP4 -/
theorem test_cmp_is_unsigned :
    (after (step (with01 [0xA7, 0, 1] 200 100))).map (·.flags) = some ⟨false, true, false⟩ := by decide
/-- V-CMP7 -/
theorem test_cmp_clears_old_flags :
    (after (step { with01 [0xA7, 0, 1] 1 1 with flags := ⟨false, true, false⟩ })).map (·.flags) =
      some ⟨true, false, false⟩ := by decide
/-- V-JMP3 -/
theorem test_jmp : outcome (with01 [0x54, 0] 255 0) = some (255, 0xF4, 255) := by decide
/-- V-JEQ3 -/
theorem test_jeq_falls_through_before_any_cmp : outcome (with01 [0x55, 0] 30 0) = some (30, 0xF4, 2) := by decide
/-- V-JEQ9 -/
theorem test_jeq_checks_its_index_when_not_taken :
    runAfter (load [0x55, 9]) = some (.faulted (.registerIndexOutOfRange 9)) := by decide
/-- V-JNE3 -/
theorem test_jne_jumps_before_any_cmp : outcome (with01 [0x56, 0] 9 0) = some (9, 0xF4, 9) := by decide
/-- V-CALL253 -/
theorem test_call_at_253 :
    (after (exec (.call 1) { with01 [] 0 5 with pc := 253 })).map (fun t => (t.mem.read 0xF3, t.sp, t.pc)) =
      some (255, 0xF3, 5) := by decide
/-- V-CALL7 -/
theorem test_call_7_jumps_to_the_new_pointer : outcome (load [0x50, 7]) = some (0, 0xF3, 0xF3) := by decide
/-- V-RETe -/
theorem test_ret_with_nothing_pushed : outcome (load [0x11]) = some (0, 0xF5, 0) := by decide
/-- V-RET255 -/
theorem test_ret_at_255_raises :
    runAfter ((load [0x11]).setReg 7 255) = some (.faulted (.outOfRangeAddress 256)) := by decide

/-! ## The step -/

/-- V-F254i: the fetch fault wins over the illegal opcode. -/
theorem test_fetch_fault_wins :
    runAfter { State.reset with pc := 254, mem := [(254, 0xFF)] } = some (.faulted (.outOfRangeAddress 256)) := by decide
/-- S6 -/
theorem test_illegal_opcode :
    (after (step (load [0x83]))).map (fun t => (t.run, t.pc)) = some (.faulted (.illegalOpcode 0x83), 0) := by decide
/-- V-F253c -/
theorem test_three_bytes_at_253 :
    outcome { State.reset with pc := 253, mem := [(253, 0x82), (255, 0x05)] } = some (5, 0xF4, 256) := by decide
/-- 20_memory.md R43, 95_test_vectors.md: `MemWrite(a, 1, 300)` stores 44. -/
theorem test_memory_write_truncates :
    (memWrite State.reset 255 300).toOption.map (·.mem.read 255) = some 44 := by decide
theorem test_zero_write_unlists_the_cell : Memory.write [(3, 7), (9, 1)] 3 0 = [(9, 1)] := by decide
/-- R72: comments, blank lines, malformed lines; the first and last lines of the format's illustration. -/
theorem test_image_text :
    parseImage "10000010 # LDI 0 8\n# a comment\n\n00001000\n12\nHLT\n00000001 # HLT\n".toList = [0x82, 8, 1] := by decide
theorem test_image_text_keeps_bytes_only :
    parseImage "111111111\n  11111111#x\n".toList = [255] := by decide
theorem test_assembly_text : (Instr.ldi 0 8).assembly = "LDI 0 8" := by decide
theorem test_printed_lines : printedLines [17, 255] = ["17", "255"] := by decide

/-! ## Witnesses: concrete states and operands that meet the hypotheses of the statements, clause by clause -/

/-- An opcode map other than the default. -/
def otherMap : OpMap := fun m => defaultOpMap m ^^^ 0b00100000

theorem otherMap_ne_default : otherMap .nop ≠ defaultOpMap .nop := by decide
theorem lookup_otherMap (m : Mnemonic) : lookup otherMap (otherMap m) = some m := by cases m <;> rfl
/-- For every statement over valid maps. -/
theorem witness_valid_map : otherMap.Valid := by
  refine ⟨fun m n h => ?_, fun m => by cases m <;> rfl⟩
  simpa [lookup_otherMap] using congrArg (lookup otherMap) h

theorem witness_LoadedProgram_longest : (List.replicate 256 (0xFF : Byte)).length ≤ 256 := List.length_replicate.le
theorem witness_LoadedProgram_too_long : 256 < (List.replicate 257 (0xFF : Byte)).length := by
  rw [List.length_replicate]; omega
theorem witness_RunsOfLoadedPrograms :
    ∃ s t : State, loadProgram [0x82, 0, 8, 1] = some s ∧ Sys2Proof.core.run 2 s = .next t := ⟨_, _, rfl, rfl⟩

/-- `pc` at its greatest value, a cell at each end of memory, a flag true. -/
def edgeState : State :=
  { State.reset with pc := 256, mem := [(0, 1), (255, 0xFF)], flags := ⟨false, true, false⟩ }

theorem witness_StepKeepsTheInvariant : edgeState.Inv defaultOpMap ∧ ∃ t, step edgeState = .next t :=
  ⟨⟨by decide, by decide, by simp [edgeState, Flags.atMostOne], trivial⟩, _, rfl⟩

theorem witness_DecodeOfEncode_window : encode otherMap (.ldi 7 0xFF) <+: [otherMap .ldi, 7, 0xFF] := List.prefix_refl _
theorem witness_DecodedBytesEncodeBack : decode otherMap (otherMap .push) 0xFF 0x12 = .ok (.push 0xFF) := rfl
theorem witness_BytesOutside : arityField (otherMap .ret) = 0 ∧ arityField (otherMap .not) = 1 := by decide

/-- LDI at 253, the last address an instruction executes at. -/
def at253 : State := { State.reset with pc := 253, mem := [(253, 0x82), (255, 0x05)] }

theorem witness_StepRuns : at253.run = .running ∧ FetchedBytes at253 0x82 0x00 0x05 ∧
    decode defaultOpMap 0x82 0x00 0x05 = .ok (.ldi 0 5) := ⟨rfl, by unfold FetchedBytes; decide, rfl⟩
theorem witness_StepRuns_otherMap :
    FetchedBytes { at253 with mem := [(253, 0xA2), (255, 0x05)] } 0xA2 0x00 0x05 ∧
    decode otherMap 0xA2 0x00 0x05 = .ok (.ldi 0 5) := ⟨by unfold FetchedBytes; decide, rfl⟩
theorem witness_RunningMachineAlwaysSteps : State.reset.run = .running ∧ edgeState.run = .running := ⟨rfl, rfl⟩
theorem witness_FetchAbove253 : edgeState.run = .running ∧ 254 ≤ edgeState.pc.toNat ∧ edgeState.pc.toNat ≤ 256 := by decide
theorem witness_FetchAbove253_low :
    254 ≤ ({ edgeState with pc := 254 } : State).pc.toNat ∧ ({ edgeState with pc := 254 } : State).pc.toNat ≤ 256 := by decide

/-- Every arity is there, but 0x83 is no opcode; with the other map 0x00 is none. -/
def illegalState : State := load [0x83, 0xFF, 0xFF]

theorem witness_UnboundOpcode : illegalState.run = .running ∧ FetchedBytes illegalState 0x83 0xFF 0xFF ∧
    (∀ m : Mnemonic, defaultOpMap m ≠ 0x83) :=
  ⟨rfl, by unfold FetchedBytes; decide, fun m => by cases m <;> decide⟩
theorem witness_UnboundOpcode_otherMap : ∀ m : Mnemonic, otherMap m ≠ 0x00 := fun m => by cases m <;> decide
theorem witness_InvalidRegisterIndex :
    (Instr.shl 8 9).indexOperands.find? (fun x => !validIndex x) = some 8 ∧
    (Instr.div 7 8).indexOperands.find? (fun x => !validIndex x) = some 8 ∧
    (Instr.pop 255).indexOperands.find? (fun x => !validIndex x) = some 255 := by decide

/-- A step that answers a next state in which the cause is recorded. -/
def Raises1 (s : State) (c : Cause) : Prop :=
  s.run = .running ∧ s.pc.toNat ≤ 256 ∧ ∃ t : State, step s = .next t ∧ t.run = .faulted c

theorem witness_Priority_fetch : Raises1 edgeState (.outOfRangeAddress 256) := ⟨rfl, by decide, _, rfl, rfl⟩
theorem witness_Priority_opcode : Raises1 illegalState (.illegalOpcode 0x83) := ⟨rfl, by decide, _, rfl, rfl⟩
theorem witness_Priority_index : Raises1 (load [0xA3, 7, 8]) (.registerIndexOutOfRange 8) := ⟨rfl, by decide, _, rfl, rfl⟩
theorem witness_Priority_divisor : Raises1 (load [0xA3, 7, 0]) .divideByZero := ⟨rfl, by decide, _, rfl, rfl⟩
theorem witness_Priority_remainder : Raises1 (load [0xA4, 0, 0]) .divideByZero := ⟨rfl, by decide, _, rfl, rfl⟩
theorem witness_Priority_push : Raises1 ((load [0x45, 7]).setReg 7 0) (.outOfRangeAddress (-1)) :=
  ⟨rfl, by decide, _, rfl, rfl⟩
theorem witness_Priority_call : Raises1 ((load [0x50, 0]).setReg 7 0) (.outOfRangeAddress (-1)) :=
  ⟨rfl, by decide, _, rfl, rfl⟩
theorem witness_Priority_pop : Raises1 ((load [0x46, 0]).setReg 7 255) (.outOfRangeAddress 256) :=
  ⟨rfl, by decide, _, rfl, rfl⟩
theorem witness_Priority_ret : Raises1 ((load [0x11]).setReg 7 255) (.outOfRangeAddress 256) :=
  ⟨rfl, by decide, _, rfl, rfl⟩
theorem witness_RaiseChangesOnly : ∃ t, step (load [0x47, 8]) = .next t ∧ t.run = .faulted (.registerIndexOutOfRange 8) :=
  ⟨_, rfl, rfl⟩
theorem witness_TerminalStates :
    ({ State.reset with run := .halted } : State).run = .halted ∧
    ({ State.reset with run := .faulted .divideByZero } : State).run = .faulted .divideByZero := ⟨rfl, rfl⟩
theorem witness_OnlyDivAndMod : ((load []).setReg 7 0).reg 7 = 0 ∧
    ∃ t, exec (.mod 7 0) (load []) = .next t ∧ t.run = .faulted .divideByZero := ⟨rfl, _, rfl, rfl⟩
theorem witness_StepAdvances : FetchedBytes at253 0x82 0x00 0x05 ∧ defaultOpMap .ldi = 0x82 ∧
    Mnemonic.ldi ∉ [Mnemonic.jmp, .jeq, .jne, .call, .ret] ∧ ∃ t, step at253 = .next t ∧ t.run = .running :=
  ⟨by unfold FetchedBytes; decide, rfl, by decide, _, rfl, rfl⟩

/-- Code below `pc`, zeros from `pc` on. -/
def zerosFrom254 : State := { State.reset with pc := 254, mem := [(0, 0xFF), (253, 0xFF)] }

theorem witness_ZeroMemoryRunsNops : zerosFrom254.run = .running ∧ zerosFrom254.pc.toNat ≤ 254 ∧
    ∀ a : Nat, zerosFrom254.pc.toNat ≤ a → zerosFrom254.mem.read a = 0 := by
  refine ⟨rfl, by decide, fun a h => ?_⟩
  have h : 254 ≤ a := h
  have h0 : a ≠ 0 := by omega
  have h253 : a ≠ 253 := by omega
  simp [zerosFrom254, Memory.read, Memory.unlisted, h0, h253]
theorem witness_PlacedWord : at253.run = .running ∧ at253.pc.toNat ≤ 253 ∧ at253.mem.wf = true ∧
    decodeTableWord 8 0x11 = some .ret ∧ decodeTableWord 24 0xFF00A0 = some (.add 0 255) := by decide
theorem witness_MemoryPrimitives_top : (0 : Int) ≤ 255 ∧ (255 : Int) ≤ 255 ∧ edgeState.mem.wf = true := by decide
theorem witness_MemoryPrimitives_outside : ((-1 : Int) < 0 ∨ 255 < (-1 : Int)) ∧ ((256 : Int) < 0 ∨ 255 < (256 : Int)) := by
  decide
theorem witness_RegistersChange :
    ∃ t, exec (.pop 3) (load []) = .next t ∧ (Instr.pop 3).mnemonic = .pop ∧ Instr.pop 3 = .pop (regByte 3) :=
  ⟨_, rfl, rfl, rfl⟩
theorem witness_RegistersChange_destination :
    ∃ t, exec (.not 7) (load []) = .next t ∧ (Instr.not 7).operands.head? = some (regByte 7) ∧
      (Instr.not 7).mnemonic ∉ [Mnemonic.push, .call, .pop] := ⟨_, rfl, rfl, by decide⟩
theorem witness_RegistersChange_others :
    ∃ t u, exec (.cmp 1 2) (load []) = .next t ∧ (Instr.cmp 1 2).mnemonic ∈ [Mnemonic.nop, .hlt, .prn, .jmp, .jeq, .jne, .cmp] ∧
      exec .ret (load []) = .next u ∧ Instr.ret.mnemonic ∈ [Mnemonic.push, .call, .ret] :=
  ⟨_, _, rfl, by decide, rfl, by decide⟩
/-- A store to the lowest byte of memory. -/
theorem witness_OnlyPushAndCall : ((load [0x50, 7]).setReg 7 1).mem.wf = true ∧
    ∃ t, step ((load [0x50, 7]).setReg 7 1) = .next t ∧ t.mem.read 0 = 2 := ⟨by decide, _, rfl, rfl⟩
theorem witness_OnlyPrn : ∃ t, step (load [0x47, 7]) = .next t ∧ t.out ≠ (load [0x47, 7]).out := ⟨_, rfl, by decide⟩
/-- A reader of `E` under flags that agree on `E` alone, and an instruction that reads no flag. -/
theorem witness_Flags :
    (∃ t, exec (.jeq 0) edgeState = .next t ∧ (⟨false, false, true⟩ : Flags).E = edgeState.flags.E) ∧
    ∃ t, exec (.add 0 1) edgeState = .next t ∧ (Instr.add 0 1).mnemonic ∉ [Mnemonic.jeq, .jne] ∧
      (Instr.add 0 1).mnemonic ≠ .cmp := ⟨⟨_, rfl, rfl⟩, _, rfl, by decide, by decide⟩

theorem witness_Ldi_and_jumps_index_above_7 : 7 < (8 : Byte).toNat ∧ 7 < (255 : Byte).toNat := by decide
theorem witness_Push_and_Call_lowest : edgeState.mem.wf = true ∧ 0 < (edgeState.setReg 7 1).sp.toNat := by decide
theorem witness_Push_and_Call_raise : (edgeState.setReg 7 0).sp.toNat = 0 := by decide
theorem witness_Pop : (0 : RegIdx) ≠ 7 ∧ (edgeState.setReg 7 254).sp.toNat < 255 := by decide
theorem witness_Pop_raise : (6 : RegIdx) ≠ 7 ∧ (edgeState.setReg 7 255).sp.toNat = 255 := by decide
theorem witness_Pop_7 :
    (at253.mem.read (at253.setReg 7 253).sp.toNat).toNat < 255 ∧
    (Memory.read [(253, 254)] (at253.setReg 7 253).sp.toNat).toNat < 255 := by decide
theorem witness_Pop_7_raise : (edgeState.mem.read (edgeState.setReg 7 255).sp.toNat).toNat = 255 := by decide
theorem witness_PushThenPop : (1 : RegIdx) ≠ 7 ∧ (2 : RegIdx) ≠ 7 ∧ edgeState.mem.wf = true ∧ 0 < edgeState.sp.toNat := by
  decide

/-- PUSH at 251, the last place for it, with the stack pointer where its store hits the next instruction. -/
def pushAhead : State := ({ State.reset with pc := 251, mem := [(251, 0x45)] }.setReg 7 254).setReg 0 0x01

theorem witness_StoredByte : pushAhead.mem.wf = true ∧ pushAhead.pc.toNat ≤ 251 ∧ pushAhead.sp.toNat = pushAhead.pc.toNat + 3 ∧
    ∃ t, exec (.push (regByte 0)) pushAhead = .next t := ⟨by decide, by decide, by decide, _, rfl⟩
theorem witness_StoredByte_sp : ∃ t, exec (.push (regByte 7)) pushAhead = .next t := ⟨_, rfl⟩
theorem witness_DivMod : (State.reset.setReg 1 255).reg 1 ≠ 0 ∧ (State.reset.setReg 1 1).reg 1 ≠ 0 := by decide
theorem witness_Jumps : State.reset.flags.E = false ∧ ({ State.reset with flags := ⟨true, false, false⟩ } : State).flags.E = true := by
  decide
theorem witness_CompareThenJump : State.reset.reg 0 = State.reset.reg 1 ∧ State.reset.reg 0 ≠ State.reset.reg 7 := by decide
theorem witness_Call_pc : at253.mem.wf = true ∧ 0 < at253.sp.toNat ∧ at253.pc.toNat ≤ 253 := by decide
theorem witness_Ret : (at253.setReg 7 254).sp.toNat < 255 := by decide
theorem witness_Ret_raise : (at253.setReg 7 255).sp.toNat = 255 := by decide
/-- The state CALL left, its flags changed meanwhile. -/
theorem witness_CallThenRet : ∃ t, exec (.call (regByte 0)) at253 = .next t ∧
    ({ t with flags := ⟨true, false, false⟩ } : State).sp = t.sp ∧
    ({ t with flags := ⟨true, false, false⟩ } : State).mem.read t.sp.toNat = t.mem.read t.sp.toNat := ⟨_, rfl, rfl, rfl⟩

end Sys2Proof.Tests
end

/-! ## The flags: one writer, and two readers of `E` alone (R18)

Replacing the flags commutes with every instruction that neither writes them nor reads the part replaced: before or after
EXECUTE, the outcome is the same. That is said once for each shared operation, then for `exec`; the non-interference clause
of the obligation follows. -/

namespace Sys2Proof.Machine

/-! ### `setFlags` commutes with the other updates and with the shared operations -/

@[simp] theorem State.setReg_setFlags (s : State) (f : Flags) (i : RegIdx) (v : Int) :
    (s.setFlags f).setReg i v = (s.setReg i v).setFlags f := rfl

@[simp] theorem State.advance_setFlags (s : State) (f : Flags) (n : Nat) :
    (s.setFlags f).advance n = (s.advance n).setFlags f := rfl

@[simp] theorem State.jump_setFlags (s : State) (f : Flags) (v : Byte) :
    (s.setFlags f).jump v = (s.jump v).setFlags f := rfl

@[simp] theorem stackTop_setFlags (s : State) (f : Flags) : stackTop (s.setFlags f) = stackTop s := rfl

@[simp] theorem memRead_setFlags (s : State) (f : Flags) (addr : Int) : memRead (s.setFlags f) addr = memRead s addr := rfl

@[simp] theorem memWrite_setFlags (s : State) (f : Flags) (addr v : Int) :
    memWrite (s.setFlags f) addr v = (·.setFlags f) <$> memWrite s addr v := by
  unfold memWrite
  split <;> rfl

@[simp] theorem decSp_setFlags (s : State) (f : Flags) : decSp (s.setFlags f) = (·.setFlags f) <$> decSp s := by
  by_cases h : stackTop s - 1 < 0 <;> simp [decSp, h]

theorem aluR_setFlags (g : Byte → Int) (a : Byte) (s : State) (f : Flags) :
    aluR g a (s.setFlags f) = (·.setFlags f) <$> aluR g a s := by
  simp [aluR]

theorem aluRR_setFlags (g : Byte → Byte → Except Cause Int) (a b : Byte) (s : State) (f : Flags) :
    aluRR g a b (s.setFlags f) = (·.setFlags f) <$> aluRR g a b s := by
  simp [aluRR]

/-! ### `setFlags` commutes with `exec` -/

/-- Both outcomes are next states, the second one the first with its flags replaced by `f`. -/
def NextWithFlags (f : Flags) (r r' : Result) : Prop := ∃ t, r = .next t ∧ r' = .next (t.setFlags f)

/-- An instruction commutes with `setFlags` where its effect does; a raise does so anyway. -/
theorem perform_setFlags {s : State} {f : Flags} {e e' : Except Cause State} (h : e' = (·.setFlags f) <$> e) :
    NextWithFlags f (perform s e) (perform (s.setFlags f) e') := by
  subst h
  cases e with
  | ok t => exact ⟨t, rfl, rfl⟩
  | error c => exact ⟨raise c s, rfl, rfl⟩

/-- An instruction other than CMP carries the flags along; JEQ and JNE do so as long as `E` stays the same. -/
theorem exec_setFlags {ins : Instr} {s : State} {f : Flags} (hcmp : ins.mnemonic ≠ .cmp)
    (hE : ins.mnemonic ∉ [.jeq, .jne] ∨ f.E = s.flags.E) :
    NextWithFlags f (exec ins s) (exec ins (s.setFlags f)) := by
  cases ins with
  | nop | hlt => exact ⟨_, rfl, rfl⟩
  | cmp a b => exact absurd rfl hcmp
  | inc a | dec a | not a => exact perform_setFlags (aluR_setFlags _ a s f)
  | add a b | sub a b | mul a b | div a b | mod a b | and a b | or a b | xor a b | shl a b | shr a b =>
    exact perform_setFlags (aluRR_setFlags _ a b s f)
  | ldi a imm => exact perform_setFlags (by simp)
  | prn a => exact perform_setFlags (by cases regIndex a <;> rfl)
  | jmp a => exact perform_setFlags (by simp)
  | jeq a | jne a =>
    have hE : f.E = s.flags.E := hE.resolve_left (by simp [Instr.mnemonic])
    refine perform_setFlags ?_
    by_cases hs : s.flags.E <;> simp [Flags.isEqual, hE, hs]
  | push a | pop a | call a | ret => exact perform_setFlags (by simp)

theorem eq_cmp_of_mnemonic {ins : Instr} (h : ins.mnemonic = .cmp) : ∃ a b, ins = .cmp a b := by
  cases ins with
  | cmp a b => exact ⟨a, b, rfl⟩
  | _ => cases h

/-- CMP reads no flag: whatever the flags were, it answers the same state, or the same raise. -/
theorem exec_cmp_setFlags {a b : Byte} {s t : State} (f : Flags) (h : exec (.cmp a b) s = .next t) :
    ∃ u, exec (.cmp a b) (s.setFlags f) = .next u ∧ u.setFlags t.flags = t := by
  obtain he | ⟨c, hr, rfl⟩ := exec_next_cases h
  · cases he with
    | alu _ _ hm => simp [Instr.mnemonic, aluMnemonics] at hm
    | cmp i j => exact ⟨_, execCmp_regByte i j _, rfl⟩
  · cases hr with
    | index b hb => exact ⟨_, exec_of_invalid hb _, rfl⟩

/-- Non-interference: the flags beforehand, but for the `E` that JEQ and JNE read, show in nothing of the next state but the
flags. -/
theorem exec_ignores_flags {ins : Instr} {s t : State} {f : Flags} (h : exec ins s = .next t)
    (hE : ins.mnemonic ∉ [.jeq, .jne] ∨ f.E = s.flags.E) :
    ∃ u, exec ins (s.setFlags f) = .next u ∧ u.setFlags t.flags = t := by
  by_cases hcmp : ins.mnemonic = .cmp
  · obtain ⟨a, b, rfl⟩ := eq_cmp_of_mnemonic hcmp
    exact exec_cmp_setFlags f h
  · obtain ⟨t', ht', hu⟩ := exec_setFlags hcmp hE
    obtain rfl : t = t' := Host.Outcome.next.inj (h.symm.trans ht')
    exact ⟨_, hu, rfl⟩

/-! ### The writer -/

/-- CMP leaves exactly one flag true (R140). -/
theorem compareFlags_mem (p q : Byte) :
    compareFlags p q ∈ [⟨true, false, false⟩, ⟨false, true, false⟩, ⟨false, false, true⟩] := by
  unfold compareFlags
  rcases Nat.lt_trichotomy p.toNat q.toNat with h | h | h
  · simp [h, h.ne, h.le]
  · simp [h]
  · simp [h, h.ne', h.le]

theorem Effect.flags_eq {ins : Instr} {s t : State} (h : Effect s ins t) (hcmp : ins.mnemonic ≠ .cmp) :
    t.flags = s.flags := by
  cases h with
  | cmp => exact absurd rfl hcmp
  | jeq | jne => split <;> rfl
  | _ => rfl

/-- No instruction but CMP writes a flag, and no raise does. -/
theorem exec_flags_eq {ins : Instr} {s t : State} (h : exec ins s = .next t) (hcmp : ins.mnemonic ≠ .cmp) :
    t.flags = s.flags := by
  obtain he | ⟨c, -, rfl⟩ := exec_next_cases h
  · exact he.flags_eq hcmp
  · rfl

/-- Settles O32. The readers' dependence on `E` shows at the reset state, where the jump goes to 0 and the advance to 2. -/
theorem flagsHaveOneWriterAndTwoReadersOfE : Obligations.FlagsHaveOneWriterAndTwoReadersOfE := by
  refine ⟨fun _ _ _ => exec_flags_eq, fun i j s => ?cmp, ?jeq, ?jne, fun _ _ _ _ => exec_ignores_flags⟩
  case cmp => exact ⟨_, execCmp_regByte i j s, compareFlags_mem (s.reg i) (s.reg j)⟩
  case jeq => exact ⟨State.reset, _, _, rfl, rfl, by decide⟩
  case jne => exact ⟨State.reset, _, _, rfl, rfl, by decide⟩

end Sys2Proof.Machine

/-! ## Decoding reads the operand bytes that `ir[7:6]` counts, and no other (R69)

An instruction is its mnemonic with its operand bytes, and the operand bytes of a decoded instruction are the first
`ir[7:6]` bytes after the opcode. So the decoder answers the same where those bytes are the same. -/

namespace Sys2Proof

theorem Instr.eq_of_mnemonic_of_operands {i j : Instr} (hm : i.mnemonic = j.mnemonic) (ho : i.operands = j.operands) :
    i = j := by
  rw [← i.assemble_operands [], hm, ho, j.assemble_operands []]

/-- Only the bytes that the format uses matter to the instruction put together. -/
theorem Mnemonic.assemble_congr {m : Mnemonic} {a b a' b' : Byte}
    (h : [a, b].take m.operandCount = [a', b'].take m.operandCount) : m.assemble a b = m.assemble a' b' := by
  apply Instr.eq_of_mnemonic_of_operands
  · simp only [Mnemonic.mnemonic_assemble]
  · simpa only [Mnemonic.operands_assemble] using h

/-- Under a valid map an opcode that is found has its mnemonic's operand count in bits [7:6] (R61, R66). -/
theorem OpMap.Valid.arityField_of_lookup {M : OpMap} (hM : M.Valid) {ir : Byte} {m : Mnemonic}
    (h : lookup M ir = some m) : arityField ir = m.operandCount := by
  obtain ⟨-, harity⟩ := hM
  rw [← opcode_of_lookup h, harity]

/-- Bytes from which the same `ir[7:6]` operand bytes are taken decode alike: an illegal opcode is one whatever follows it. -/
theorem OpMap.Valid.decode_congr {M : OpMap} (hM : M.Valid) {ir a b a' b' : Byte}
    (h : [a, b].take (arityField ir) = [a', b'].take (arityField ir)) : decode M ir a b = decode M ir a' b' := by
  cases hl : lookup M ir with
  | none => rw [decode_eq_error.mpr ⟨hl, rfl⟩, decode_eq_error.mpr ⟨hl, rfl⟩]
  | some m =>
    rw [hM.arityField_of_lookup hl] at h
    rw [decode_eq_ok.mpr ⟨m, hl, Mnemonic.assemble_congr h⟩, decode_eq_ok.mpr ⟨m, hl, rfl⟩]

end Sys2Proof

namespace Sys2Proof.Machine

/-- Settles O12: of the two bytes after the opcode, none is taken at count 0, and only the first at count 1. -/
theorem bytesOutsideTheInstructionAreIgnored : Obligations.BytesOutsideTheInstructionAreIgnored := by
  intro M hM ir a b a' b'
  exact ⟨fun h => hM.decode_congr (by simp [h]), fun h => hM.decode_congr (by simp [h])⟩

end Sys2Proof.Machine

/-! ## An opcode byte of no mnemonic (R84)

Where three bytes exist at `pc`, the fetch cannot fail, so only the lookup of the first byte decides: with no mnemonic found,
the cycle raises, and a raise changes `run` alone. -/

namespace Sys2Proof.Machine

/-- Fetched bytes of which the first is the opcode of no mnemonic do not decode. -/
theorem FetchedBytes.fetchDecode_eq_illegalOpcode {M : OpMap} {s : State} {ir opa opb : Byte}
    (hb : FetchedBytes s ir opa opb) (hM : ∀ m : Mnemonic, M m ≠ ir) : fetchDecode M s = .error (.illegalOpcode ir) := by
  obtain ⟨hpc, hir, -, -⟩ := hb
  rw [fetchDecode_of_le hpc, hir, lookup_eq_none.mpr hM]

/-- The dispatch of an unbound opcode, for any opcode map: valid or not, it is only looked up. -/
theorem cycle_unbound_opcode {M : OpMap} {s : State} {ir opa opb : Byte} (hrun : s.run = .running)
    (hb : FetchedBytes s ir opa opb) (hM : ∀ m : Mnemonic, M m ≠ ir) :
    cycle M s = .next { s with run := .faulted (.illegalOpcode ir) } :=
  cycle_raise hrun (hb.fetchDecode_eq_illegalOpcode hM)

/-- Settles O17: a step is the cycle with the default map. -/
theorem unboundOpcodeRaisesIllegalOpcode : Obligations.UnboundOpcodeRaisesIllegalOpcode :=
  ⟨fun _ _ _ _ => cycle_unbound_opcode, fun _ _ _ _ _ => cycle_unbound_opcode⟩

end Sys2Proof.Machine

/-! ## The system instructions (R100 to R102), and how runs end or go on for ever (R89)

HLT ends a run in one step. The infinite run is of the one-instruction loop `JMP x0`: after reset `x0` is 0, the address of the
JMP itself, so the jump gives the same state again, and a state that steps to itself runs for ever. -/

namespace Sys2Proof.Machine

/-! ### What NOP, HLT and PRN answer, and the frame of ADVANCE -/

theorem exec_nop (s : State) : exec .nop s = .next (s.advance 0) := rfl

theorem exec_hlt (s : State) : exec .hlt s = .next { s with run := .halted } := rfl

theorem exec_prn_regByte (i : RegIdx) (s : State) :
    exec (.prn (regByte i)) s = .next (State.advance { s with out := s.out ++ [s.reg i] } 1) := execPrn_regByte i s

/-- ADVANCE touches the program counter alone (R87). -/
theorem State.writesOnlyRegs_advance (s : State) (n : Nat) : WritesOnlyRegs [] s (s.advance n) := by
  refine ⟨?regs, ?mem, ?control⟩
  case regs => exact fun i _ => s.advance_reg n i
  case mem => exact fun a => by rw [s.advance_mem n]
  case control => exact ⟨s.advance_flags n, s.advance_run n, s.advance_out n⟩

/-- Settles O33: NOP is the bare ADVANCE. -/
theorem nopOnlyAdvances : Obligations.NopOnlyAdvances :=
  ⟨rfl, fun s => ⟨_, exec_nop s, s.advance_pc 0, s.writesOnlyRegs_advance 0⟩⟩

/-- Settles O34. -/
theorem hltHaltsInPlace : Obligations.HltHaltsInPlace :=
  ⟨rfl, fun s => ⟨_, exec_hlt s, rfl, rfl, rfl, rfl, fun _ _ => rfl, fun _ => rfl⟩⟩

/-- Settles O35: PRN extends the output, then advances; the frame is that of ADVANCE from the state with the output extended. -/
theorem prnAppendsTheRegister : Obligations.PrnAppendsTheRegister := by
  refine ⟨fun _ => rfl, fun i s => ⟨_, exec_prn_regByte i s, ?_⟩⟩
  obtain ⟨hregs, hmem, hflags, hrun, hout⟩ := State.writesOnlyRegs_advance { s with out := s.out ++ [s.reg i] } 1
  exact ⟨hout, State.advance_pc _ 1, hflags, hrun, hregs, hmem⟩

/-! ### The infinite run -/

/-- A state that steps to itself runs for ever. -/
theorem core_run_of_step_self {s : State} (h : step s = .next s) (k : Nat) : Sys2Proof.core.run k s = .next s := by
  induction k with
  | zero => rfl
  | succ k ih => rw [core_run_succ_next k h, ih]

/-- A JMP to its own address changes nothing. -/
theorem exec_jmp_of_reg_eq_pc {i : RegIdx} {s : State} (h : zext9 (s.reg i) = s.pc) :
    exec (.jmp (regByte i)) s = .next s := by
  have hjump : s.jump (s.reg i) = s := by rw [State.jump, h]
  exact (execJmp_regByte i s).trans (congrArg _ hjump)

/-- The program `JMP x0` loaded. -/
def selfJump : State := State.resetWith [(0, 0x54)]

theorem loadProgram_selfJump : loadProgram [0x54, 0x00] = some selfJump := rfl

theorem fetchDecode_selfJump : fetchDecode defaultOpMap selfJump = .ok (.jmp (regByte 0)) := by
  rw [fetchDecode_of_le (by decide)]
  rfl

theorem step_selfJump : step selfJump = .next selfJump :=
  (cycle_exec rfl fetchDecode_selfJump).trans (exec_jmp_of_reg_eq_pc rfl)

/-- Settles O21: the run for ever is that of `selfJump`. -/
theorem terminalStatesHaveNoStep : Obligations.TerminalStatesHaveNoStep := by
  refine ⟨exec_hlt, fun _ => cycle_halted, fun _ _ => cycle_faulted, fun s => State.resetWith_run s.mem, ?infinite⟩
  case infinite =>
    exact ⟨[0x54, 0x00], selfJump, loadProgram_selfJump, fun k => ⟨selfJump, core_run_of_step_self step_selfJump k, rfl⟩⟩

end Sys2Proof.Machine

/-! ## Data movement and the stack (R110 to R113)

PUSH and POP are described once, each by the state it answers: `pushed` (of `Laws/Exec`) and `popped`. What follows a PUSH
(the POP that undoes it, the fetch of the byte it stored) is derived from the clauses of its obligation, not from its
meaning. -/

namespace Sys2Proof.Machine

/-! ### Frames -/

theorem State.writesOnlyRegs_setReg (s : State) (i : RegIdx) (v : Int) : WritesOnlyRegs [i] s (s.setReg i v) := by
  refine ⟨?regs, fun _ => rfl, rfl, rfl, rfl⟩
  case regs =>
    intro r hr
    rw [State.reg_setReg, if_neg (List.ne_of_not_mem_cons hr)]

theorem WritesOnlyRegs.trans {rs qs : List RegIdx} {s t u : State} (h : WritesOnlyRegs rs s t)
    (h' : WritesOnlyRegs qs t u) : WritesOnlyRegs (rs ++ qs) s u := by
  obtain ⟨hregs, hmem, hflags, hrun, hout⟩ := h
  obtain ⟨hregs', hmem', hflags', hrun', hout'⟩ := h'
  refine ⟨?regs, fun a => (hmem' a).trans (hmem a), hflags'.trans hflags, hrun'.trans hrun, hout'.trans hout⟩
  case regs =>
    intro r hr
    rw [List.mem_append, not_or] at hr
    exact (hregs' r hr.2).trans (hregs r hr.1)

theorem WritesOnlyRegs.mono {rs qs : List RegIdx} {s t : State} (h : WritesOnlyRegs rs s t) (hsub : rs ⊆ qs) :
    WritesOnlyRegs qs s t := by
  obtain ⟨hregs, hframe⟩ := h
  exact ⟨fun r hr => hregs r (mt (@hsub r) hr), hframe⟩

/-- ADVANCE adds nothing to the frame of what came before it. -/
theorem WritesOnlyRegs.advance {rs : List RegIdx} {s t : State} (h : WritesOnlyRegs rs s t) (n : Nat) :
    WritesOnlyRegs rs s (t.advance n) := by
  simpa using h.trans (t.writesOnlyRegs_advance n)

/-! ### Operand validation -/

/-- Where the format has one register index, an operand byte above 7 raises (R85). -/
theorem exec_of_single_index_invalid {ins : Instr} {a : Byte} (hops : ins.indexOperands = [a]) (ha : 7 < a.toNat)
    (s : State) : exec ins s = .next (raise (.registerIndexOutOfRange a) s) := by
  have hbad : ¬ a.toNat < 8 := by omega
  exact exec_of_invalid (by simp [hops, validIndex, hbad]) s

/-! ### LDI -/

theorem exec_ldi_regByte (i : RegIdx) (imm : Byte) (s : State) :
    exec (.ldi (regByte i) imm) s = .next ((s.setReg i imm.toNat).advance 2) := execLdi_regByte i imm s

/-- Settles O36: a byte is below 256, so the register write stores the literal as it is. -/
theorem ldiLoadsTheLiteral : Obligations.LdiLoadsTheLiteral := by
  refine ⟨fun _ _ => rfl, fun i imm s => ⟨_, exec_ldi_regByte i imm s, ?reg, State.advance_pc _ 2, ?frame⟩, ?trap⟩
  case reg => rw [State.advance_reg, State.reg_setReg_self, trunc8_toNat_cast]
  case frame => exact (s.writesOnlyRegs_setReg i _).advance 2
  case trap => exact fun a imm s ha => exec_of_single_index_invalid rfl ha s

/-! ### PUSH -/

theorem exec_push_regByte (i : RegIdx) {s : State} (h : 0 < s.sp.toNat) :
    exec (.push (regByte i)) s = .next ((pushed s ((decremented s).reg i)).advance 1) := execPush_regByte i h

theorem exec_push_empty (i : RegIdx) {s : State} (h : s.sp.toNat = 0) :
    exec (.push (regByte i)) s = .next (raise (.outOfRangeAddress (-1)) s) := execPush_empty i h

theorem stackTop_decremented {s : State} (h : 0 < s.sp.toNat) : stackTop (decremented s) = stackTop s - 1 := by
  have htop := decremented_top h
  rw [State.sp_def] at h
  rw [stackTop_eq, stackTop_eq]
  omega

theorem sameRegsExcept_decremented (s : State) : SameRegsExcept [7] s (decremented s) :=
  fun _ hr => decremented_reg s (List.ne_of_not_mem_cons hr)

/-- The value that PUSH stores: register 7 is read after it has moved (D8), the others did not move. -/
theorem decremented_reg_eq_ite (s : State) (i : RegIdx) :
    (decremented s).reg i = if i = 7 then (decremented s).sp else s.reg i := by
  split
  next h7 => rw [h7]; rfl
  next h7 => exact decremented_reg s h7

/-- The store of PUSH and CALL is at the top of the decremented stack. -/
theorem pushed_mem_eq_write_stackTop {s : State} (h : 0 < s.sp.toNat) (v : Byte) :
    (pushed s v).mem = s.mem.write (stackTop (decremented s)).toNat v := by
  rw [pushed_mem, stackTop_eq, Int.toNat_natCast, decremented_top h]

theorem pushed_read_stackTop {s : State} (hwf : s.mem.wf = true) (h : 0 < s.sp.toNat) (v : Byte) :
    (pushed s v).mem.read (stackTop (decremented s)).toNat = v := by
  rw [pushed_mem_eq_write_stackTop h, Memory.read_write hwf, if_pos rfl]

theorem sameMemoryExcept_pushed {s : State} (hwf : s.mem.wf = true) (h : 0 < s.sp.toNat) (v : Byte) :
    SameMemoryExcept (stackTop (decremented s)) s (pushed s v) := by
  intro a ha
  have hne : a ≠ (stackTop (decremented s)).toNat := by
    rw [stackTop_eq] at ha ⊢
    omega
  rw [pushed_mem_eq_write_stackTop h, Memory.read_write hwf, if_neg hne]

/-- Settles O37: the next state is `pushed`, advanced. -/
theorem pushStoresBelowTheStackPointer : Obligations.PushStoresBelowTheStackPointer := by
  refine ⟨fun _ => rfl, fun i s hwf hpos => ?next, fun i s => exec_push_empty i⟩
  case next =>
    refine ⟨decremented s, _, decSp_of_pos hpos, stackTop_decremented hpos, exec_push_regByte i hpos, ?sp, ?stored,
      ?mem, ?regs, ⟨rfl, rfl, rfl⟩, State.advance_pc _ 1⟩
    case sp => exact decremented_top hpos
    case stored => exact (pushed_read_stackTop hwf hpos _).trans (decremented_reg_eq_ite s i)
    case mem => exact sameMemoryExcept_pushed hwf hpos _
    case regs => exact sameRegsExcept_decremented s

/-! ### POP -/

/-- The state after POP has loaded `x[i]` and the stack pointer has moved. -/
def popped (i : RegIdx) (s : State) : State :=
  (s.setReg i (s.mem.read (s.reg 7).toNat).toNat).setReg 7 ((popBase i s).toNat + 1)

theorem exec_pop_regByte (i : RegIdx) {s : State} (h : (popBase i s).toNat < 255) :
    exec (.pop (regByte i)) s = .next ((popped i s).advance 1) := execPop_regByte i h

theorem exec_pop_full (i : RegIdx) {s : State} (h : (popBase i s).toNat = 255) :
    exec (.pop (regByte i)) s = .next (raise (.outOfRangeAddress 256) s) := execPop_full i h

theorem popBase_of_ne {i : RegIdx} (h : i ≠ 7) (s : State) : popBase i s = s.sp := if_neg h

theorem popBase_seven (s : State) : popBase 7 s = s.mem.read s.sp.toNat := if_pos rfl

theorem popped_sp_toNat {i : RegIdx} {s : State} (h : (popBase i s).toNat < 255) :
    (popped i s).sp.toNat = (popBase i s).toNat + 1 := by
  have hstored := trunc8_toNat_of_range (v := ((popBase i s).toNat : Int) + 1) (by omega) (by omega)
  rw [State.sp_def, popped, State.reg_setReg_self]
  omega

theorem popped_reg {i : RegIdx} (h : i ≠ 7) (s : State) : (popped i s).reg i = s.mem.read s.sp.toNat := by
  rw [popped, State.reg_setReg, if_neg h, State.reg_setReg_self, trunc8_toNat_cast, State.sp_def]

theorem writesOnlyRegs_popped (i : RegIdx) (s : State) : WritesOnlyRegs [i, 7] s (popped i s) :=
  (s.writesOnlyRegs_setReg i _).trans (State.writesOnlyRegs_setReg _ 7 _)

/-- Settles O38: the next state is `popped`, advanced; the operand 7 only changes what `popBase` is. -/
theorem popLoadsTheTopOfTheStack : Obligations.PopLoadsTheTopOfTheStack := by
  refine ⟨fun _ => rfl, fun i s hi hlt => ?other, fun s hlt => ?seven, fun i s hi hfull => ?otherFull,
    fun s hfull => ?sevenFull⟩
  case other =>
    have hbase := popBase_of_ne hi s
    rw [← hbase] at hlt
    refine ⟨_, exec_pop_regByte i hlt, popped_reg hi s, ?_, (writesOnlyRegs_popped i s).advance 1, State.advance_pc _ 1⟩
    rw [← hbase]
    exact popped_sp_toNat hlt
  case seven =>
    rw [← popBase_seven] at hlt ⊢
    exact ⟨_, exec_pop_regByte 7 hlt, popped_sp_toNat hlt, ((writesOnlyRegs_popped 7 s).mono (by simp)).advance 1,
      State.advance_pc _ 1⟩
  case otherFull => exact exec_pop_full i (by rwa [popBase_of_ne hi])
  case sevenFull => exact exec_pop_full 7 (by rwa [popBase_seven])

/-! ### What follows a PUSH -/

/-- Settles O39: POP reads where PUSH stored, and adds to the stack pointer what PUSH took from it. -/
theorem pushThenPopRestores : Obligations.PushThenPopRestores := by
  intro i j s hi hj hwf hpos
  obtain ⟨-, hpush, -⟩ := pushStoresBelowTheStackPointer
  obtain ⟨-, hpop, -⟩ := popLoadsTheTopOfTheStack
  obtain ⟨s₁, t, -, htop, ht, htsp, hstored, -, hregs, -⟩ := hpush i s hwf hpos
  have hb := s.sp.isLt
  obtain ⟨u, hu, huj, husp, ⟨hregs', -⟩, -⟩ := hpop j t hj (by omega)
  have haddr : (stackTop s₁).toNat = t.sp.toNat := by
    rw [htop, stackTop]
    omega
  have hsp : u.sp = s.sp := BitVec.eq_of_toNat_eq (by omega)
  refine ⟨t, u, ht, hu, ?value, hsp, ?regs⟩
  case value => rw [huj, ← haddr, hstored, if_neg hi]
  case regs =>
    intro r hr
    by_cases h7 : r = 7
    · rw [h7]
      exact hsp
    · have hpopped : r ∉ [j, 7] := by simp [h7, List.ne_of_not_mem_cons hr]
      exact (hregs' r hpopped).trans (hregs r (by simpa using h7))

/-- Settles O40: PUSH stores at `pc + 2`, where it then advances to. -/
theorem storedByteIsFetchedByTheNextStep : Obligations.StoredByteIsFetchedByTheNextStep := by
  intro i s t hwf hpc hsp ht
  obtain ⟨-, hpush, -⟩ := pushStoresBelowTheStackPointer
  obtain ⟨s₁, t', -, htop, ht', -, hstored, hmem, -, -, htpc⟩ := hpush i s hwf (by omega)
  obtain rfl : t = t' := Host.Outcome.next.inj (ht.symm.trans ht')
  have hpc2 : t.pc.toNat = s.pc.toNat + 2 := by
    rw [htpc]
    bv_omega
  have haddr : stackTop s₁ = (t.pc.toNat : Int) := by
    rw [htop, stackTop]
    omega
  rw [haddr, Int.toNat_natCast] at hstored
  rw [haddr] at hmem
  refine ⟨⟨by omega, hstored, ?first, ?second⟩, hpc2⟩
  case first => rw [hmem _ (by omega), hpc2]
  case second => rw [hmem _ (by omega), hpc2]

end Sys2Proof.Machine

/-! ## Arithmetic (R120 to R127)

An ALU instruction is a function on the operand values between the shared operand validation and the shared register write.
What it computes, and its frame, are therefore said once for each shape, `aluR` and `aluRR`; an instruction adds its opcode
and the arithmetic of its function. -/

namespace Sys2Proof.Machine

/-! ### The two shapes -/

/-- An instruction of the shape `aluRR` computes what its function gives, reduced by the register write (R13). -/
theorem computesRR_of_aluRR {op : Byte} {mk : Byte → Byte → Instr} {f : Byte → Byte → Except Cause Int}
    {ok : Byte → Byte → Prop} {res : Byte → Byte → Byte → Prop}
    (henc : ∀ a b, encode defaultOpMap (mk a b) = [op, a, b])
    (hexec : ∀ a b s, exec (mk a b) s = perform s (aluRR f a b s))
    (hf : ∀ p q, ok p q → ∃ v, f p q = .ok v ∧ res p q (trunc8 v)) : ComputesRR op mk ok res := by
  refine ⟨henc, fun i j s hok => ?_⟩
  obtain ⟨v, hv, hres⟩ := hf _ _ hok
  refine ⟨(s.setReg i v).advance 2, ?next, ?result, State.advance_pc _ 2, (s.writesOnlyRegs_setReg i v).advance 2⟩
  case next => rw [hexec, aluRR_regByte f i j s hv, perform_ok]
  case result => rwa [State.advance_reg, State.reg_setReg_self]

/-- An instruction of the shape `aluR` computes what its function gives, reduced by the register write (R13). -/
theorem computesR_of_aluR {op : Byte} {mk : Byte → Instr} {f : Byte → Int} {res : Byte → Byte → Prop}
    (henc : ∀ a, encode defaultOpMap (mk a) = [op, a])
    (hexec : ∀ a s, exec (mk a) s = perform s (aluR f a s))
    (hf : ∀ p, res p (trunc8 (f p))) : ComputesR op mk res := by
  refine ⟨henc, fun i s => ⟨(s.setReg i (f (s.reg i))).advance 1, ?next, ?result, State.advance_pc _ 1,
    (s.writesOnlyRegs_setReg i _).advance 1⟩⟩
  case next => rw [hexec, aluR_regByte, perform_ok]
  case result =>
    rw [State.advance_reg, State.reg_setReg_self]
    exact hf (s.reg i)

/-! ### The ALU's functions -/

/-- A result that is a natural number is stored modulo 256. -/
theorem trunc8_natCast_toNat (n : Nat) : (trunc8 n).toNat = n % 256 := by
  exact_mod_cast trunc8_toNat n

/-- The quotient of DIV fits a byte: it is the quotient of bytes. -/
theorem aluDiv_of_ne_zero (p : Byte) {q : Byte} (h : q ≠ 0) : aluDiv p q = .ok ((p / q).toNat : Int) := by
  have hq : q.toNat ≠ 0 := BitVec.toNat_ne_iff_ne.mpr h
  rw [aluDiv, if_neg hq, BitVec.toNat_udiv]

/-- What MOD subtracts leaves the remainder of bytes. -/
theorem aluMod_of_ne_zero (p : Byte) {q : Byte} (h : q ≠ 0) : aluMod p q = .ok ((p % q).toNat : Int) := by
  have hq : q.toNat ≠ 0 := BitVec.toNat_ne_iff_ne.mpr h
  rw [aluMod, if_neg hq, BitVec.toNat_umod, Int.natCast_mod, Int.emod_def, Int.natCast_div]

/-! ### The instructions -/

/-- Settles O41: SUB may go below 0 and is reduced as an integer, ADD and MUL are reduced as natural numbers. -/
theorem addSubMulWrapModulo256 : Obligations.AddSubMulWrapModulo256 := by
  refine ⟨?add, ?sub, ?mul⟩
  case add =>
    exact computesRR_of_aluRR (fun _ _ => rfl) (fun _ _ _ => rfl) fun p q _ =>
      ⟨_, rfl, trunc8_natCast_toNat (p.toNat + q.toNat)⟩
  case sub =>
    exact computesRR_of_aluRR (fun _ _ => rfl) (fun _ _ _ => rfl) fun p q _ => ⟨_, rfl, trunc8_toNat (aluSub p q)⟩
  case mul =>
    exact computesRR_of_aluRR (fun _ _ => rfl) (fun _ _ _ => rfl) fun p q _ =>
      ⟨_, rfl, trunc8_natCast_toNat (p.toNat * q.toNat)⟩

/-- Settles O42: the results fit a byte, so they are stored as they are, and the bounds are those of natural division. -/
theorem divModGiveQuotientAndRemainder : Obligations.DivModGiveQuotientAndRemainder := by
  refine ⟨?div, ?mod⟩
  case div =>
    refine computesRR_of_aluRR (fun _ _ => rfl) (fun _ _ _ => rfl) fun p q hq => ⟨_, aluDiv_of_ne_zero p hq, ?_⟩
    have hpos : 0 < q.toNat := BitVec.toNat_pos_of_ne_zero hq
    rw [trunc8_toNat_cast, BitVec.toNat_udiv]
    exact ⟨Nat.mul_div_le _ _, Nat.lt_mul_div_succ _ hpos⟩
  case mod =>
    refine computesRR_of_aluRR (fun _ _ => rfl) (fun _ _ _ => rfl) fun p q hq => ⟨_, aluMod_of_ne_zero p hq, ?_⟩
    have hpos : 0 < q.toNat := BitVec.toNat_pos_of_ne_zero hq
    rw [trunc8_toNat_cast, BitVec.toNat_umod]
    exact ⟨Nat.mod_lt _ hpos, p.toNat / q.toNat, (Nat.div_add_mod' _ _).symm⟩

/-- Settles O43: DEC may go below 0 and is reduced as an integer, INC is reduced as a natural number. -/
theorem incDecWrapModulo256 : Obligations.IncDecWrapModulo256 := by
  refine ⟨?inc, ?dec⟩
  case inc =>
    exact computesR_of_aluR (fun _ => rfl) (fun _ _ => rfl) fun p => trunc8_natCast_toNat (p.toNat + 1)
  case dec => exact computesR_of_aluR (fun _ => rfl) (fun _ _ => rfl) fun p => trunc8_toNat (aluDec p)

end Sys2Proof.Machine

/-! ## Bitwise and shifts (R130 to R136)

The ALU answers an integer. Reduced by the register write, it is here the bit vector operation of the same name on the
operand bytes, so the bits and the bounds the obligations name are the library's facts about that operation. -/

namespace Sys2Proof.Machine

/-! ### The ALU's functions -/

theorem trunc8_aluAnd (p q : Byte) : trunc8 (aluAnd p q) = p &&& q := by
  rw [aluAnd, ← BitVec.toNat_and, trunc8_toNat_cast]

theorem trunc8_aluOr (p q : Byte) : trunc8 (aluOr p q) = p ||| q := by
  rw [aluOr, ← BitVec.toNat_or, trunc8_toNat_cast]

theorem trunc8_aluXor (p q : Byte) : trunc8 (aluXor p q) = p ^^^ q := by
  rw [aluXor, ← BitVec.toNat_xor, trunc8_toNat_cast]

theorem toNat_not_byte (p : Byte) : (~~~p).toNat = 255 - p.toNat := BitVec.toNat_not

theorem trunc8_aluNot (p : Byte) : trunc8 (aluNot p) = ~~~p := by
  have hp : p.toNat ≤ 255 := Nat.le_of_lt_succ p.isLt
  have hval : aluNot p = ((~~~p).toNat : Int) := by rw [toNat_not_byte, Nat.cast_sub hp]; rfl
  rw [hval, trunc8_toNat_cast]

/-- A left shift is the one function here whose result may exceed a byte: the bits shifted out are what the reduction
drops. -/
theorem trunc8_aluShl (p q : Byte) : trunc8 (aluShl p q) = p <<< q.toNat := by
  apply BitVec.eq_of_toNat_eq
  rw [aluShl, trunc8_natCast_toNat, BitVec.toNat_shiftLeft, Nat.shiftLeft_eq]

theorem trunc8_aluShr (p q : Byte) : trunc8 (aluShr p q) = p >>> q.toNat := by
  rw [aluShr, ← Nat.shiftRight_eq_div_pow, ← BitVec.toNat_ushiftRight, trunc8_toNat_cast]

/-! ### The instructions -/

/-- Settles O44: each function is an operation of the library that works bit by bit. -/
theorem andOrXorAreBitwise : Obligations.AndOrXorAreBitwise := by
  refine ⟨?and, ?or, ?xor⟩
  case and =>
    refine computesRR_of_aluRR (fun _ _ => rfl) (fun _ _ _ => rfl) fun p q _ => ⟨aluAnd p q, rfl, fun k => ?_⟩
    rw [trunc8_aluAnd, BitVec.getLsbD_and]
  case or =>
    refine computesRR_of_aluRR (fun _ _ => rfl) (fun _ _ _ => rfl) fun p q _ => ⟨aluOr p q, rfl, fun k => ?_⟩
    rw [trunc8_aluOr, BitVec.getLsbD_or]
  case xor =>
    refine computesRR_of_aluRR (fun _ _ => rfl) (fun _ _ _ => rfl) fun p q _ => ⟨aluXor p q, rfl, fun k => ?_⟩
    rw [trunc8_aluXor, BitVec.getLsbD_xor]

/-- Settles O45: `255 - x[a]` is the complement of the byte, whose bits inside the width are the inverted ones. -/
theorem notInvertsEveryBit : Obligations.NotInvertsEveryBit := by
  refine computesR_of_aluR (fun _ => rfl) (fun _ _ => rfl) fun p => ?_
  rw [trunc8_aluNot]
  refine ⟨toNat_not_byte p, fun k hk => ?_⟩
  rw [BitVec.getLsbD_not, decide_eq_true hk, Bool.true_and]

/-- Settles O46: the amount is all of `x[b]`, and a shift by the width or more leaves no bit of the byte. -/
theorem shiftsUseTheWholeAmount : Obligations.ShiftsUseTheWholeAmount := by
  refine ⟨?shl, ?shr⟩
  case shl =>
    exact computesRR_of_aluRR (fun _ _ => rfl) (fun _ _ _ => rfl) fun p q _ =>
      ⟨aluShl p q, rfl, trunc8_natCast_toNat _, fun hq => (trunc8_aluShl p q).trans (BitVec.shiftLeft_eq_zero hq)⟩
  case shr =>
    refine computesRR_of_aluRR (fun _ _ => rfl) (fun _ _ _ => rfl) fun p q _ =>
      ⟨aluShr p q, rfl, ?_, fun hq => (trunc8_aluShr p q).trans (BitVec.ushiftRight_eq_zero hq)⟩
    rw [trunc8_aluShr, BitVec.toNat_ushiftRight, Nat.shiftRight_eq_div_pow]

end Sys2Proof.Machine

/-! ## Compare and jumps (R140 to R143)

Each flag of the comparator is one relation between the operands. The jumps have one shape, a jump where a condition on `E`
holds and ADVANCE otherwise, so their obligation is proved once for the shape; an instruction adds its condition. -/

namespace Sys2Proof.Machine

/-! ### The comparator -/

@[simp] theorem compareFlags_E_iff (p q : Byte) : (compareFlags p q).E = true ↔ p = q :=
  decide_eq_true_iff.trans BitVec.toNat_inj

@[simp] theorem compareFlags_G_iff (p q : Byte) : (compareFlags p q).G = true ↔ p.toNat > q.toNat := decide_eq_true_iff

@[simp] theorem compareFlags_L_iff (p q : Byte) : (compareFlags p q).L = true ↔ p.toNat < q.toNat := decide_eq_true_iff

/-- Settles O47: the frame is that of ADVANCE from the state with the flags replaced. -/
theorem cmpSetsTheThreeFlags : Obligations.CmpSetsTheThreeFlags := by
  refine ⟨fun _ _ => rfl, fun i j s => ⟨_, execCmp_regByte i j s, compareFlags_E_iff _ _, compareFlags_G_iff _ _,
    compareFlags_L_iff _ _, State.advance_pc _ 2, ?_⟩⟩
  obtain ⟨hregs, hmem, -, hrun, hout⟩ := (s.setFlags (compareFlags (s.reg i) (s.reg j))).writesOnlyRegs_advance 2
  exact ⟨hregs, hmem, hrun, hout⟩

/-! ### The shape of the jumps -/

/-- A jump touches the program counter alone (R144). -/
theorem State.writesOnlyRegs_jump (s : State) (v : Byte) : WritesOnlyRegs [] s (s.jump v) :=
  ⟨fun i _ => s.jump_reg v i, fun _ => rfl, s.jump_flags v, s.jump_run v, s.jump_out v⟩

/-- An instruction with one register index that jumps there where `taken` holds of `E`, and otherwise advances. -/
theorem jumpsWhen_of_exec {op : Byte} {mk : Byte → Instr} {taken : Bool → Prop} [DecidablePred taken]
    (henc : ∀ a, encode defaultOpMap (mk a) = [op, a]) (hops : ∀ a, (mk a).indexOperands = [a])
    (hexec : ∀ i s, exec (mk (regByte i)) s = .next (if taken s.flags.E then s.jump (s.reg i) else s.advance 1)) :
    JumpsWhen op mk taken := by
  refine ⟨henc, fun i s => ⟨_, hexec i s, ?taken, ?notTaken, ?frame⟩, ?trap⟩
  case taken =>
    intro h
    rw [if_pos h, State.jump_pc, zext9_toNat]
  case notTaken =>
    intro h
    rw [if_neg h]
    exact s.advance_pc 1
  case frame =>
    split
    · exact s.writesOnlyRegs_jump _
    · exact s.writesOnlyRegs_advance 1
  case trap => exact fun a s ha => exec_of_single_index_invalid (hops a) ha s

/-- Settles O48: JMP's condition always holds, JEQ's is `E`, and JNE's is that of JEQ with the branches exchanged. -/
theorem jumpsGoToTheRegisterExactly : Obligations.JumpsGoToTheRegisterExactly := by
  refine ⟨?jmp, ?jeq, ?jne⟩
  case jmp =>
    refine jumpsWhen_of_exec (fun _ => rfl) (fun _ => rfl) fun i s => ?_
    rw [if_pos trivial]
    exact execJmp_regByte i s
  case jeq => exact jumpsWhen_of_exec (fun _ => rfl) (fun _ => rfl) execJeq_regByte
  case jne =>
    refine jumpsWhen_of_exec (fun _ => rfl) (fun _ => rfl) fun i s => (execJne_regByte i s).trans ?_
    simp only [← Bool.not_eq_true, ite_not]

/-! ### What follows a CMP -/

/-- Settles O49: CMP puts the equality into `E`, and keeps the register that the jumps take their target from. -/
theorem compareThenJumpBranchesOnEquality : Obligations.CompareThenJumpBranchesOnEquality := by
  intro i j k s
  obtain ⟨-, hcmp⟩ := cmpSetsTheThreeFlags
  obtain ⟨-, ⟨-, hjeq, -⟩, ⟨-, hjne, -⟩⟩ := jumpsGoToTheRegisterExactly
  obtain ⟨t, ht, hE, -, -, htpc, hregs, -⟩ := hcmp i j s
  obtain ⟨u, hu, hutaken, hufall, -⟩ := hjeq k t
  obtain ⟨v, hv, hvtaken, hvfall, -⟩ := hjne k t
  have htarget : t.reg k = s.reg k := hregs k List.not_mem_nil
  have hfall : t.pc + 2 = s.pc + 5 := by
    rw [htpc, add_assoc]
    rfl
  rw [htarget] at hutaken hvtaken
  rw [hfall] at hufall hvfall
  refine ⟨t, u, v, ht, hu, hv, fun heq => ?equal, fun hdiff => ?different⟩
  case equal =>
    have htrue : t.flags.E = true := hE.mpr heq
    exact ⟨hutaken htrue, hvfall (ne_false_of_eq_true htrue)⟩
  case different =>
    have hne : t.flags.E ≠ true := mt hE.mp hdiff
    exact ⟨hufall hne, hvtaken (eq_false_of_ne_true hne)⟩

end Sys2Proof.Machine

/-! ## Subroutines (R150, R151)

CALL answers `pushed` with the return address, then jumps; RET moves the stack pointer up by one, then jumps to the byte it
found there. What a RET does after a CALL is derived from the clauses of these two obligations, not from the meanings. -/

namespace Sys2Proof.Machine

/-! ### CALL -/

/-- Where an instruction executes, the return address fits the byte that CALL stores it in. -/
theorem returnAddress_toNat {s : State} (h : s.pc.toNat ≤ 253) : (trunc8 (s.pc.toNat + 2)).toNat = s.pc.toNat + 2 := by
  exact_mod_cast trunc8_toNat_of_range (v := (s.pc.toNat : Int) + 2) (by omega) (by omega)

theorem exec_call_regByte (i : RegIdx) {s : State} (h : 0 < s.sp.toNat) :
    exec (.call (regByte i)) s = .next ((pushed s (trunc8 (s.pc.toNat + 2))).jump ((decremented s).reg i)) :=
  execCall_regByte i h

theorem exec_call_empty (i : RegIdx) {s : State} (h : s.sp.toNat = 0) :
    exec (.call (regByte i)) s = .next (raise (.outOfRangeAddress (-1)) s) := execCall_empty i h

/-- Settles O50: the jump adds only the program counter to what `pushed` does. -/
theorem callPushesTheReturnAddress : Obligations.CallPushesTheReturnAddress := by
  refine ⟨fun _ => rfl, fun i s hwf hpos => ?next, fun i s => exec_call_empty i⟩
  case next =>
    refine ⟨decremented s, _, decSp_of_pos hpos, stackTop_decremented hpos, exec_call_regByte i hpos, ?sp,
      fun hpc => ?stored, ?mem, ?regs, ⟨rfl, rfl, rfl⟩, ?pc⟩
    case sp => exact decremented_top hpos
    case stored => rw [State.jump_mem, pushed_read_stackTop hwf hpos, returnAddress_toNat hpc]
    case mem => exact sameMemoryExcept_pushed hwf hpos _
    case regs => exact sameRegsExcept_decremented s
    case pc =>
      rw [State.jump_pc, zext9_toNat, decremented_reg_eq_ite]
      rfl

/-! ### RET -/

/-- The state after RET has moved the stack pointer and jumped. -/
def returned (s : State) : State := (s.setReg 7 (s.sp.toNat + 1)).jump (s.mem.read s.sp.toNat)

theorem exec_ret_of_lt {s : State} (h : s.sp.toNat < 255) : exec .ret s = .next (returned s) := execRet_of_lt h

theorem exec_ret_full {s : State} (h : s.sp.toNat = 255) : exec .ret s = .next (raise (.outOfRangeAddress 256) s) :=
  execRet_full h

theorem returned_pc_toNat (s : State) : (returned s).pc.toNat = (s.mem.read s.sp.toNat).toNat := by
  rw [returned, State.jump_pc, zext9_toNat]

theorem returned_sp_toNat {s : State} (h : s.sp.toNat < 255) : (returned s).sp.toNat = s.sp.toNat + 1 := by
  rw [State.sp_def (returned s), returned, State.jump_reg, State.reg_setReg_self]
  exact_mod_cast trunc8_toNat_of_range (v := (s.sp.toNat : Int) + 1) (by omega) (by omega)

theorem writesOnlyRegs_returned (s : State) : WritesOnlyRegs [7] s (returned s) :=
  (s.writesOnlyRegs_setReg 7 _).trans (State.writesOnlyRegs_jump _ _)

/-- Settles O51: the next state is `returned`. -/
theorem retPopsTheProgramCounter : Obligations.RetPopsTheProgramCounter :=
  ⟨rfl, fun s hlt => ⟨_, exec_ret_of_lt hlt, returned_pc_toNat s, returned_sp_toNat hlt, writesOnlyRegs_returned s⟩,
    fun _ => exec_ret_full⟩

/-! ### A RET after a CALL -/

/-- Settles O52: RET reads where CALL stored, and adds to the stack pointer what CALL took from it. -/
theorem callThenRetResumesAfterTheCall : Obligations.CallThenRetResumesAfterTheCall := by
  intro i s hwf hpos hpc
  obtain ⟨-, hcall, -⟩ := callPushesTheReturnAddress
  obtain ⟨-, hret, -⟩ := retPopsTheProgramCounter
  obtain ⟨s₁, t, -, htop, ht, htsp, hstored, -⟩ := hcall i s hwf hpos
  have haddr : (stackTop s₁).toNat = t.sp.toNat := by
    rw [htop, stackTop]
    omega
  refine ⟨t, ht, fun u husp hukept => ?_⟩
  have hb := s.sp.isLt
  obtain ⟨v, hv, hvpc, hvsp, -⟩ := hret u (by rw [husp]; omega)
  refine ⟨v, hv, ?pc, ?sp⟩
  case pc => rw [hvpc, husp, hukept, ← haddr, hstored hpc]
  case sp =>
    apply BitVec.eq_of_toNat_eq
    rw [hvsp, husp]
    omega

end Sys2Proof.Machine

/-! ## The fatal condition DivideByZero (R202)

An instruction that runs to its effect leaves the run state RUNNING, or makes it HALTED; so a FAULTED state after EXECUTE was
raised, and what was raised says which instruction it was. -/

namespace Sys2Proof.Machine

/-! ### A zero divisor raises -/

theorem aluDiv_zero (p : Byte) : aluDiv p 0 = .error .divideByZero := rfl

theorem aluMod_zero (p : Byte) : aluMod p 0 = .error .divideByZero := rfl

theorem exec_div_zero (i : RegIdx) {j : RegIdx} {s : State} (h : s.reg j = 0) :
    exec (.div (regByte i) (regByte j)) s = .next (raise .divideByZero s) :=
  congrArg (perform s) (aluRR_raise aluDiv i j s (h ▸ aluDiv_zero (s.reg i)))

theorem exec_mod_zero (i : RegIdx) {j : RegIdx} {s : State} (h : s.reg j = 0) :
    exec (.mod (regByte i) (regByte j)) s = .next (raise .divideByZero s) :=
  congrArg (perform s) (aluRR_raise aluMod i j s (h ▸ aluMod_zero (s.reg i)))

/-! ### Nothing else does -/

/-- The cause an instruction leaves behind is one that it raised: effects do not fault (R206). -/
theorem raises_of_exec_faulted {ins : Instr} {s t : State} {c : Cause} (hrun : s.run = .running)
    (h : exec ins s = .next t) (ht : t.run = .faulted c) : Raises s ins c := by
  obtain he | ⟨d, hr, rfl⟩ := exec_next_cases h
  · obtain hkept | ⟨-, hhalted⟩ := he.run_eq
    · simp [hkept, hrun] at ht
    · simp [hhalted] at ht
  · obtain rfl : d = c := RunState.faulted.inj ht
    exact hr

theorem Raises.eq_div_or_mod {ins : Instr} {s : State} (h : Raises s ins .divideByZero) :
    ∃ i j : RegIdx, (ins = .div (regByte i) (regByte j) ∨ ins = .mod (regByte i) (regByte j)) ∧ s.reg j = 0 := by
  cases h with
  | div i j hzero => exact ⟨i, j, .inl rfl, BitVec.eq_of_toNat_eq hzero⟩
  | mod i j hzero => exact ⟨i, j, .inr rfl, BitVec.eq_of_toNat_eq hzero⟩

/-- A FAULTED machine has no step (R89). -/
theorem step_ne_next_of_faulted {s : State} {c : Cause} (h : s.run = .faulted c) (t : State) : step s ≠ .next t := by
  rw [step_eq_cycle, cycle_faulted h]
  exact nofun

/-- Settles O22: the two instructions raise by the ALU, and a machine found FAULTED after EXECUTE was raised by one of them. -/
theorem onlyDivAndModRaiseDivideByZero : Obligations.OnlyDivAndModRaiseDivideByZero := by
  refine ⟨fun i j s hzero => ⟨exec_div_zero i hzero, exec_mod_zero i hzero⟩, fun ins s t hrun h ht => ⟨?raiser, ?noStep⟩⟩
  case raiser => exact (raises_of_exec_faulted hrun h ht).eq_div_or_mod
  case noStep => exact step_ne_next_of_faulted ht

end Sys2Proof.Machine

/-! ## What a step can do

The inversion of `cycle`, carried through EXECUTE: a step has the effect of the instruction it fetched, or it raises one
condition, of the fetch or of the instruction. The obligations about every step start from here. -/

namespace Sys2Proof.Machine

/-- The conditions that the phases of a step can raise: FETCH and DISPATCH, then the instruction itself (R209). -/
def StepRaises (M : OpMap) (s : State) (c : Cause) : Prop :=
  fetchDecode M s = .error c ∨ ∃ i, fetchDecode M s = .ok i ∧ Raises s i c

theorem cycle_effect_or_raise {M : OpMap} {s t : State} (h : cycle M s = .next t) :
    s.run = .running ∧ ((∃ i, fetchDecode M s = .ok i ∧ Effect s i t) ∨ ∃ c, StepRaises M s c ∧ t = raise c s) := by
  obtain ⟨hrun, ⟨c, hf, rfl⟩ | ⟨i, hf, hx⟩⟩ := cycle_next_cases h
  · exact ⟨hrun, .inr ⟨c, .inl hf, rfl⟩⟩
  · obtain he | ⟨c, hr, rfl⟩ := exec_next_cases hx
    · exact ⟨hrun, .inl ⟨i, hf, he⟩⟩
    · exact ⟨hrun, .inr ⟨c, .inr ⟨i, hf, hr⟩, rfl⟩⟩

/-- An effect of a running machine does not fault (R206). -/
theorem Effect.run_ne_faulted {ins : Instr} {s t : State} (h : Effect s ins t) (hrun : s.run = .running) (c : Cause) :
    t.run ≠ .faulted c := by
  obtain hkept | ⟨-, hhalted⟩ := h.run_eq
  · simp [hkept, hrun]
  · simp [hhalted]

/-- A step that leaves the machine RUNNING raised nothing. -/
theorem effect_of_cycle_running {M : OpMap} {s t : State} (h : cycle M s = .next t) (ht : t.run = .running) :
    ∃ i, fetchDecode M s = .ok i ∧ Effect s i t := by
  obtain ⟨-, he | ⟨c, -, rfl⟩⟩ := cycle_effect_or_raise h
  · exact he
  · cases ht

/-- A step that leaves the machine FAULTED raised the recorded cause. -/
theorem raise_of_cycle_faulted {M : OpMap} {s t : State} {c : Cause} (h : cycle M s = .next t) (ht : t.run = .faulted c) :
    StepRaises M s c ∧ t = raise c s := by
  obtain ⟨hrun, ⟨i, -, he⟩ | ⟨d, hr, rfl⟩⟩ := cycle_effect_or_raise h
  · exact absurd ht (he.run_ne_faulted hrun c)
  · obtain rfl : d = c := RunState.faulted.inj ht
    exact ⟨hr, rfl⟩

/-! ### What fetching answers -/

/-- A fetch that raises is out of range, or has read the opcode of no mnemonic. -/
theorem fetchDecode_error_cases {M : OpMap} {s : State} {c : Cause} (hpc : s.pc.toNat ≤ 256)
    (h : fetchDecode M s = .error c) :
    c = .outOfRangeAddress 256 ∨ ∃ ir, c = .illegalOpcode ir ∧ ∀ m, M m ≠ ir := by
  by_cases hle : s.pc.toNat ≤ 253
  · cases hl : lookup M (s.mem.read s.pc.toNat) with
    | some m => simp [fetchDecode_of_le hle, hl] at h
    | none =>
      simp only [fetchDecode_of_le hle, hl] at h
      exact .inr ⟨_, (Except.error.inj h).symm, lookup_eq_none.mp hl⟩
  · rw [fetchDecode_of_gt (by omega) hpc] at h
    exact .inl (Except.error.inj h).symm

/-- The byte at `pc` is the opcode of the instruction fetched. -/
theorem opcode_of_fetchDecode {M : OpMap} {s : State} {i : Instr} (h : fetchDecode M s = .ok i) :
    M i.mnemonic = s.mem.read s.pc.toNat := by
  obtain ⟨-, m, hl, rfl⟩ := fetchDecode_eq_ok h
  rw [Mnemonic.mnemonic_assemble, opcode_of_lookup hl]

/-- The operand bytes of the instruction fetched follow its opcode. -/
theorem operands_of_fetchDecode {M : OpMap} {s : State} {i : Instr} (h : fetchDecode M s = .ok i) :
    i.operands = [s.mem.read (s.pc.toNat + 1), s.mem.read (s.pc.toNat + 2)].take i.mnemonic.operandCount := by
  obtain ⟨-, m, -, rfl⟩ := fetchDecode_eq_ok h
  rw [Mnemonic.mnemonic_assemble, Mnemonic.operands_assemble]

/-- Fetched bytes that decode are the instruction fetched. -/
theorem FetchedBytes.fetchDecode_eq_ok {M : OpMap} {s : State} {ir opa opb : Byte} {i : Instr}
    (hb : FetchedBytes s ir opa opb) (hd : decode M ir opa opb = .ok i) : fetchDecode M s = .ok i := by
  obtain ⟨hpc, rfl, rfl, rfl⟩ := hb
  obtain ⟨m, hl, rfl⟩ := decode_eq_ok.mp hd
  rw [fetchDecode_of_le hpc, hl]

/-! ### What an effect does to each component -/

/-- The instructions that set the final `pc` themselves (R88). -/
def controlFlow : List Mnemonic := [.jmp, .jeq, .jne, .call, .ret]

/-- The generic advance, or the `pc` of a control-flow instruction, or that of HLT, which stays. -/
theorem Effect.pc_cases {ins : Instr} {s t : State} (h : Effect s ins t) :
    t.pc = (s.advance ins.mnemonic.operandCount).pc ∨ (ins.mnemonic ∈ controlFlow ∧ ∃ v : Byte, t.pc = zext9 v) ∨
      (t.run = .halted ∧ t.pc = s.pc) := by
  cases h with
  | hlt => exact .inr (.inr ⟨rfl, rfl⟩)
  | jmp | call | ret => exact .inr (.inl ⟨by simp [controlFlow, Instr.mnemonic], _, rfl⟩)
  | jeq i =>
    split
    · exact .inr (.inl ⟨by simp [controlFlow, Instr.mnemonic], _, rfl⟩)
    · exact .inl rfl
  | jne i =>
    split
    · exact .inl rfl
    · exact .inr (.inl ⟨by simp [controlFlow, Instr.mnemonic], _, rfl⟩)
  | nop | prn | alu | cmp | push | pop => exact .inl rfl

/-- Only PUSH and CALL store, and what they store is what `pushed` stores. -/
theorem Effect.mem_cases {ins : Instr} {s t : State} (h : Effect s ins t) :
    t.mem = s.mem ∨ (ins.mnemonic ∈ [.push, .call] ∧ 0 < s.sp.toNat ∧ ∃ v, t.mem = (pushed s v).mem) := by
  cases h with
  | push i hpos => exact .inr ⟨by simp [Instr.mnemonic], hpos, _, rfl⟩
  | call i hpos => exact .inr ⟨by simp [Instr.mnemonic], hpos, _, rfl⟩
  | jeq | jne => left; split <;> rfl
  | nop | hlt | prn | alu | cmp | jmp | pop | ret => exact .inl rfl

/-- The flags stay, or are those of a comparison. -/
theorem Effect.flags_cases {ins : Instr} {s t : State} (h : Effect s ins t) :
    t.flags = s.flags ∨ ∃ p q, t.flags = compareFlags p q := by
  by_cases hcmp : ins.mnemonic = .cmp
  · obtain ⟨a, b, rfl⟩ := eq_cmp_of_mnemonic hcmp
    cases h with
    | alu _ _ hm => simp [Instr.mnemonic, aluMnemonics] at hm
    | cmp i j => exact .inr ⟨_, _, rfl⟩
  · exact .inl (h.flags_eq hcmp)

/-- The output stays, or a PRN appends its register. -/
theorem Effect.out_cases {ins : Instr} {s t : State} (h : Effect s ins t) :
    t.out = s.out ∨ ∃ i, ins = .prn (regByte i) ∧ t.out = s.out ++ [s.reg i] := by
  cases h with
  | prn i => exact .inr ⟨i, rfl, rfl⟩
  | jeq | jne => left; split <;> rfl
  | nop | hlt | alu | cmp | jmp | push | pop | call | ret => exact .inl rfl

end Sys2Proof.Machine

/-! ## The invariant (R15, R17, R40, R200)

Each part of `State.Inv` is kept by an effect, for a reason of its own; a raise touches the run state alone, with a cause
that is possible. -/

namespace Sys2Proof.Machine

/-! ### Effects -/

/-- From where an instruction executes, `pc` reaches 256 at most (D3, D4). -/
theorem Effect.pc_le {ins : Instr} {s t : State} (h : Effect s ins t) (hpc : s.pc.toNat ≤ 253) : t.pc.toNat ≤ 256 := by
  obtain hadv | ⟨-, v, hjump⟩ | ⟨-, hstay⟩ := h.pc_cases
  · have hcount := ins.mnemonic.operandCount_le
    rw [hadv, State.advance_pc_toNat hpc hcount]
    omega
  · have hv := v.isLt
    rw [hjump, zext9_toNat]
    omega
  · rw [hstay]
    omega

theorem wf_pushed {s : State} (hwf : s.mem.wf = true) (v : Byte) : (pushed s v).mem.wf = true := by
  have hsp := (s.reg 7).isLt
  exact Memory.wf_write hwf (by simp only [Config.memSize]; omega)

theorem Effect.mem_wf {ins : Instr} {s t : State} (h : Effect s ins t) (hwf : s.mem.wf = true) : t.mem.wf = true := by
  obtain hkept | ⟨-, -, v, hpushed⟩ := h.mem_cases
  · rwa [hkept]
  · rw [hpushed]
    exact wf_pushed hwf v

theorem compareFlags_atMostOne (p q : Byte) : (compareFlags p q).atMostOne := by
  simp only [Flags.atMostOne, compareFlags_E_iff, compareFlags_G_iff, compareFlags_L_iff, ← BitVec.toNat_inj]
  omega

theorem Effect.flags_atMostOne {ins : Instr} {s t : State} (h : Effect s ins t) (hs : s.flags.atMostOne) :
    t.flags.atMostOne := by
  obtain hkept | ⟨p, q, hcompared⟩ := h.flags_cases
  · rwa [hkept]
  · rw [hcompared]
    exact compareFlags_atMostOne p q

theorem Effect.run_possible {ins : Instr} {s t : State} {M : OpMap} (h : Effect s ins t) (hs : s.run.possible M) :
    t.run.possible M := by
  obtain hkept | ⟨-, hhalted⟩ := h.run_eq
  · rwa [hkept]
  · rw [hhalted]
    trivial

theorem Effect.keeps_inv {ins : Instr} {s t : State} {M : OpMap} (h : Effect s ins t) (hpc : s.pc.toNat ≤ 253)
    (hs : s.Inv M) : t.Inv M := by
  obtain ⟨-, hwf, hflags, hrun⟩ := hs
  exact ⟨h.pc_le hpc, h.mem_wf hwf, h.flags_atMostOne hflags, h.run_possible hrun⟩

/-! ### Raises -/

theorem Raises.possible {ins : Instr} {s : State} {c : Cause} (h : Raises s ins c) (M : OpMap) : c.possible M := by
  cases h with
  | index b _ hb => exact hb
  | div | mod => trivial
  | push | call => exact .inr rfl
  | pop | ret => exact .inl rfl

theorem StepRaises.possible {M : OpMap} {s : State} {c : Cause} (h : StepRaises M s c) (hpc : s.pc.toNat ≤ 256) :
    c.possible M := by
  obtain hf | ⟨i, -, hr⟩ := h
  · obtain rfl | ⟨ir, rfl, hir⟩ := fetchDecode_error_cases hpc hf
    · exact .inl rfl
    · exact hir
  · exact hr.possible M

theorem State.Inv.pc_le {M : OpMap} {s : State} (hs : s.Inv M) : s.pc.toNat ≤ 256 := by
  obtain ⟨hpc, -⟩ := hs
  exact hpc

theorem State.Inv.raise {M : OpMap} {s : State} {c : Cause} (hs : s.Inv M) (hc : c.possible M) : (raise c s).Inv M := by
  obtain ⟨hpc, hwf, hflags, -⟩ := hs
  exact ⟨hpc, hwf, hflags, hc⟩

/-! ### Steps and runs -/

/-- The invariant of any opcode map is kept by the cycle with that map. -/
theorem cycle_keeps_inv {M : OpMap} {s t : State} (hs : s.Inv M) (h : cycle M s = .next t) : t.Inv M := by
  obtain ⟨-, ⟨i, hf, he⟩ | ⟨c, hr, rfl⟩⟩ := cycle_effect_or_raise h
  · exact he.keeps_inv (pc_le_of_fetchDecode hf) hs
  · exact hs.raise (hr.possible hs.pc_le)

/-- Settles O5: the cycle keeps the invariant of its map, and `step` is the cycle with the default map. -/
theorem stepKeepsTheInvariant : Obligations.StepKeepsTheInvariant := fun _ _ => cycle_keeps_inv

theorem resetWith_inv {M : OpMap} {img : Memory} (h : img.wf = true) : (State.resetWith img).Inv M :=
  ⟨Nat.zero_le 256, h, by simp [Flags.atMostOne, Flags.reset], trivial⟩

/-- Settles O4: the image of the empty program is canonical. -/
theorem resetMeetsTheInvariant : Obligations.ResetMeetsTheInvariant := resetWith_inv rfl

/-- What every step keeps holds all along a run. -/
theorem core_run_induction {P : State → Prop} (hstep : ∀ s t, P s → step s = .next t → P t) {s t : State} {k : Nat}
    (hs : P s) (h : Sys2Proof.core.run k s = .next t) : P t := by
  induction k generalizing s with
  | zero =>
    cases h
    exact hs
  | succ k ih =>
    obtain ⟨u, hu, hrest⟩ := core_run_succ_cases h
    exact ih (hstep s u hs hu) hrest

theorem loadProgram_eq_some {program : List Byte} {s : State} (h : loadProgram program = some s) :
    ∃ img, Memory.ofImage program = some img ∧ s = State.resetWith img := by
  obtain ⟨img, himg, hs⟩ := Option.map_eq_some_iff.mp h
  exact ⟨img, himg, hs.symm⟩

/-- Settles O6: a loaded image is canonical, and every step keeps the invariant. -/
theorem runsOfLoadedProgramsKeepTheInvariant : Obligations.RunsOfLoadedProgramsKeepTheInvariant := by
  intro program s t k hload hrun
  obtain ⟨img, himg, rfl⟩ := loadProgram_eq_some hload
  exact core_run_induction stepKeepsTheInvariant (resetWith_inv (Memory.wf_ofImage himg)) hrun

end Sys2Proof.Machine

/-! ## Which condition a step raises, and what it leaves (R85, R206, R209)

A FAULTED next state is the old one raised (`raise_of_cycle_faulted`), so its cause is the one that the fetched bytes and the
instruction allow. -/

namespace Sys2Proof.Machine

/-- Settles O18. -/
theorem invalidRegisterIndexRaisesFirst : Obligations.InvalidRegisterIndexRaisesFirst :=
  fun _ s _ hb => exec_of_invalid hb s

/-- Settles O14: the three bytes at `pc` are what FETCH and DISPATCH decode. -/
theorem stepRunsTheDecodedInstruction : Obligations.StepRunsTheDecodedInstruction :=
  ⟨fun _ _ _ _ _ hrun hb hd => cycle_exec hrun (hb.fetchDecode_eq_ok hd),
    fun _ _ _ _ _ _ hrun hb hd => cycle_exec hrun (hb.fetchDecode_eq_ok hd)⟩

/-- Settles O16. -/
theorem fetchAbove253Raises : Obligations.FetchAbove253Raises :=
  fun _ hrun hlo hhi => cycle_raise hrun (fetchDecode_of_gt hlo hhi)

/-- Settles O15: a fetch that raises has a next state, and so has every instruction. -/
theorem runningMachineAlwaysSteps : Obligations.RunningMachineAlwaysSteps := by
  intro s hrun
  cases hf : fetchDecode defaultOpMap s with
  | error c => exact ⟨_, cycle_raise hrun hf⟩
  | ok i =>
    obtain ⟨t, ht⟩ := exec_answers_next i s
    exact ⟨t, (cycle_exec hrun hf).trans ht⟩

/-- The cause that a FAULTED next state records is the one its step raised. -/
theorem cause_eq_of_next_raise {r : Result} {s t : State} {c d : Cause} (h : r = .next t) (ht : t.run = .faulted c)
    (hd : r = .next (raise d s)) : c = d := by
  obtain rfl : t = raise d s := Host.Outcome.next.inj (h.symm.trans hd)
  exact (RunState.faulted.inj ht).symm

/-- No operand of a well-formed instruction is an invalid index. -/
theorem find?_indexOperands_of_wf {ins : Instr} (h : ins.wf = true) :
    ins.indexOperands.find? (fun x => !validIndex x) = none := by
  rw [Instr.wf_iff, List.all_eq_true] at h
  exact List.find?_eq_none.mpr fun x hx => by simp [h x hx]

/-- What a well-formed instruction can raise, and which (R209 d). -/
theorem Raises.cases_of_wf {ins : Instr} {s : State} {c : Cause} (h : Raises s ins c) (hwf : ins.wf = true) :
    (c = .divideByZero ∧ ins.mnemonic ∈ [.div, .mod]) ∨
    (c = .outOfRangeAddress (-1) ∧ ins.mnemonic ∈ [.push, .call]) ∨
    (c = .outOfRangeAddress 256 ∧ ins.mnemonic ∈ [.pop, .ret]) := by
  cases h with
  | index b hb => simp [find?_indexOperands_of_wf hwf] at hb
  | div | mod => exact .inl ⟨rfl, by simp [Instr.mnemonic]⟩
  | push | call => exact .inr (.inl ⟨rfl, by simp [Instr.mnemonic]⟩)
  | pop | ret => exact .inr (.inr ⟨rfl, by simp [Instr.mnemonic]⟩)

/-- Where an instruction was fetched, the condition that a step raises is the instruction's. -/
theorem StepRaises.raises_of_fetchDecode {M : OpMap} {s : State} {c : Cause} {i : Instr} (h : StepRaises M s c)
    (hf : fetchDecode M s = .ok i) : Raises s i c := by
  obtain he | ⟨j, hj, hr⟩ := h
  · simp [hf] at he
  · obtain rfl : i = j := Except.ok.inj (hf.symm.trans hj)
    exact hr

/-- Settles O19: each phase that raises ends the step, so the conditions are taken in the order of the phases. -/
theorem raisedCauseFollowsThePriority : Obligations.RaisedCauseFollowsThePriority := by
  intro s t c hrun hpc h ht
  refine ⟨fun hlo => ?fetch, fun ir opa opb hb => ⟨fun hunbound => ?dispatch, fun i hd => ⟨fun b hbad => ?index,
    fun hwf => ?execute⟩⟩⟩
  case fetch => exact cause_eq_of_next_raise h ht (fetchAbove253Raises s hrun hlo hpc)
  case dispatch => exact cause_eq_of_next_raise h ht (cycle_unbound_opcode hrun hb hunbound)
  case index =>
    have hexec := cycle_exec hrun (hb.fetchDecode_eq_ok hd)
    exact cause_eq_of_next_raise h ht (hexec.trans (exec_of_invalid hbad s))
  case execute =>
    obtain ⟨hraises, -⟩ := raise_of_cycle_faulted h ht
    exact (hraises.raises_of_fetchDecode (hb.fetchDecode_eq_ok hd)).cases_of_wf hwf

/-- Settles O20: a FAULTED next state was raised, and a raise changes `run` alone. -/
theorem raiseChangesOnlyTheRunState : Obligations.RaiseChangesOnlyTheRunState := by
  intro s t c h ht
  obtain ⟨-, heq⟩ := raise_of_cycle_faulted h ht
  refine ⟨heq, step_ne_next_of_faulted ht, ?status, ?notHalted, State.resetWith_run t.mem⟩
  case status =>
    rw [ht]
    rfl
  case notHalted => simp [ht]

/-- Settles O23. -/
theorem faultCodesAndExitStatuses : Obligations.FaultCodesAndExitStatuses :=
  ⟨fun _ => rfl, rfl, fun _ => rfl, fun _ => rfl, rfl, rfl, rfl, fun _ => rfl, rfl⟩

end Sys2Proof.Machine

/-! ## Encoding (R60 to R74) -/

namespace Sys2Proof

/-- The opcode of an instruction followed by bytes that begin with its operands decodes to it. -/
theorem OpMap.Valid.decode_opcode {M : OpMap} (hM : M.Valid) (i : Instr) (rest : List Byte) :
    decode M (M i.mnemonic) ((i.operands ++ rest).getD 0 0) ((i.operands ++ rest).getD 1 0) = .ok i :=
  decode_eq_ok.mpr ⟨i.mnemonic, (lookup_eq_some hM).mpr rfl, i.assemble_operands rest⟩

theorem OpMap.Valid.decodeBytes_encode {M : OpMap} (hM : M.Valid) (i : Instr) (rest : List Byte) :
    decodeBytes M (encode M i ++ rest) = .ok (i, rest) := by
  have hlen : ¬ (i.operands ++ rest).length < i.mnemonic.operandCount := by
    rw [List.length_append, i.length_operands]
    omega
  have hdrop : (i.operands ++ rest).drop i.mnemonic.operandCount = rest := List.drop_left' i.length_operands
  simp only [encode, List.cons_append, decodeBytes, hM.decode_opcode, if_neg hlen, hdrop]

/-- The machine's decoder sees the operands in the three bytes of the window (R81). -/
theorem OpMap.Valid.decode_of_encode_window {M : OpMap} (hM : M.Valid) {i : Instr} {ir opa opb : Byte}
    (h : encode M i <+: [ir, opa, opb]) : decode M ir opa opb = .ok i := by
  obtain ⟨rest, hrest⟩ := h
  obtain ⟨rfl, hops : i.operands ++ rest = [opa, opb]⟩ := List.cons.inj hrest
  have hd := hM.decode_opcode i rest
  rwa [hops] at hd

/-- Bits [7:6] are an operand count, which is at most 2 (R66). -/
theorem OpMap.Valid.arityField_ne_three {M : OpMap} (hM : M.Valid) (m : Mnemonic) : arityField (M m) ≠ 3 := by
  obtain ⟨-, harity⟩ := hM
  have hcount := m.operandCount_le
  rw [harity]
  omega

theorem lookup_defaultOpMap (m : Mnemonic) : lookup defaultOpMap (defaultOpMap m) = some m := by cases m <;> rfl

/-- The default map is injective because every opcode is found again (R66). -/
theorem defaultOpMap_valid : defaultOpMap.Valid := by
  refine ⟨fun m n h => ?injective, fun m => ?arity⟩
  case injective => simpa [lookup_defaultOpMap] using congrArg (lookup defaultOpMap) h
  case arity => cases m <;> rfl

/-- The opcodes of a map as numbers. -/
def opcodeNumbers (M : OpMap) : List Nat := Mnemonic.all.map fun m => (M m).toNat

theorem nodup_opcodeNumbers {M : OpMap} (hM : M.Valid) : (opcodeNumbers M).Nodup := by
  obtain ⟨hinj, -⟩ := hM
  have hall : Mnemonic.all.Nodup := by decide
  exact hall.map fun m n h => hinj m n (BitVec.eq_of_toNat_eq h)

/-- Below 256 the numbers that are looked up with success are the opcodes. -/
theorem mem_opcodeNumbers {M : OpMap} {n : Nat} :
    n ∈ opcodeNumbers M ↔ n < 256 ∧ (lookup M (BitVec.ofNat 8 n)).isSome := by
  simp only [opcodeNumbers, List.mem_map, Mnemonic.mem_all, true_and, Option.isSome_iff_ne_none, ne_eq, lookup_eq_none,
    not_forall, not_not]
  constructor
  · rintro ⟨m, rfl⟩
    exact ⟨(M m).isLt, m, by rw [BitVec.ofNat_toNat, BitVec.setWidth_eq]⟩
  · rintro ⟨hn, m, hm⟩
    exact ⟨m, by rw [hm, BitVec.toNat_ofNat, Nat.mod_eq_of_lt hn]⟩

/-- The byte values that are opcodes of a valid map number as many as the mnemonics. -/
theorem length_filter_lookup_isSome {M : OpMap} (hM : M.Valid) :
    ((List.range 256).filter fun n => !(lookup M (BitVec.ofNat 8 n)).isNone).length = 25 := by
  have hperm : List.Perm ((List.range 256).filter fun n => !(lookup M (BitVec.ofNat 8 n)).isNone) (opcodeNumbers M) := by
    rw [List.perm_ext_iff_of_nodup (List.nodup_range.filter _) (nodup_opcodeNumbers hM)]
    intro n
    simp [mem_opcodeNumbers, List.mem_filter]
  rw [hperm.length_eq, opcodeNumbers, List.length_map]
  rfl

end Sys2Proof

namespace Sys2Proof.Machine

/-- Settles O9. -/
theorem decodeOfEncodeIsTheInstruction : Obligations.DecodeOfEncodeIsTheInstruction :=
  fun _ hM i => ⟨hM.decodeBytes_encode i, fun _ _ _ => hM.decode_of_encode_window⟩

/-- Settles O10: a decoded instruction has the mnemonic that was found and the operand bytes its format takes. -/
theorem decodedBytesEncodeBack : Obligations.DecodedBytesEncodeBack := by
  intro M hM ir opa opb i hd
  obtain ⟨m, hl, rfl⟩ := decode_eq_ok.mp hd
  rw [hM.arityField_of_lookup hl]
  refine ⟨?bytes, by rw [Mnemonic.mnemonic_assemble]⟩
  case bytes =>
    rw [encode, Mnemonic.mnemonic_assemble, opcode_of_lookup hl, Mnemonic.operands_assemble, List.take_succ_cons]

/-- Settles O11: the other 25 of the 256 values are the opcodes. -/
theorem illegalOpcodesNumber231 : Obligations.IllegalOpcodesNumber231 := by
  intro M hM
  have hsplit := (List.range 256).length_eq_length_filter_add fun n => (lookup M (BitVec.ofNat 8 n)).isNone
  rw [length_filter_lookup_isSome hM, List.length_range] at hsplit
  omega

/-- Settles O7. -/
theorem defaultOpMapIsValid : Obligations.DefaultOpMapIsValid :=
  ⟨defaultOpMap_valid, fun _ hM => hM.arityField_ne_three⟩

/-- Settles O8. -/
theorem defaultOpcodesAreTheTable : Obligations.DefaultOpcodesAreTheTable := ⟨rfl, rfl, Mnemonic.mem_all⟩

/-- Settles O13. -/
theorem handWrittenWordsDecode : Obligations.HandWrittenWordsDecode := ⟨rfl, rfl, rfl, rfl, rfl, rfl, rfl, rfl⟩

end Sys2Proof.Machine

/-! ## What every step may touch (R13, R14, R20, R41 to R44) -/

namespace Sys2Proof.Machine

/-! ### Registers -/

theorem regByte_inj {i j : RegIdx} (h : regByte i = regByte j) : i = j := by
  have hval := congrArg BitVec.toNat h
  simpa [Fin.ext_iff] using hval

/-- Settles O27. -/
theorem registerWriteWrapsModulo256 : Obligations.RegisterWriteWrapsModulo256 := by
  refine fun s i v => ⟨?value, s.writesOnlyRegs_setReg i v, s.setReg_pc i v⟩
  case value => rw [State.reg_setReg_self, trunc8_toNat]

/-- The table of register accesses (R14), as to writes: the stack instructions move the stack pointer, and POP and the
instructions with a result write their first operand. -/
def MayWrite (ins : Instr) (r : RegIdx) : Prop :=
  (r = 7 ∧ ins.mnemonic ∈ [.push, .pop, .call, .ret]) ∨
  (ins.mnemonic ∈ .pop :: aluMnemonics ∧ ins.operands.head? = some (regByte r))

/-- An effect keeps every register that the table does not name. -/
theorem Effect.reg_eq {ins : Instr} {s t : State} (h : Effect s ins t) {r : RegIdx} (hr : ¬ MayWrite ins r) :
    t.reg r = s.reg r := by
  have hstack : ins.mnemonic ∈ [.push, .pop, .call, .ret] → r ≠ 7 := fun hm h7 => hr (.inl ⟨h7, hm⟩)
  have hresult : ∀ i, ins.mnemonic ∈ .pop :: aluMnemonics → ins.operands.head? = some (regByte i) → r ≠ i :=
    fun i hm hi hri => hr (.inr ⟨hm, hri ▸ hi⟩)
  cases h with
  | alu i v hm ha => exact (s.reg_setReg i r v).trans (if_neg (hresult i (List.mem_cons_of_mem _ hm) ha))
  | pop i =>
    have h7 := hstack (by simp [Instr.mnemonic])
    have hi := hresult i List.mem_cons_self rfl
    obtain ⟨hregs, -⟩ := writesOnlyRegs_popped i s
    exact hregs r (by simp [h7, hi])
  | push | call => exact decremented_reg s (hstack (by simp [Instr.mnemonic]))
  | ret => exact (s.reg_setReg 7 r _).trans (if_neg (hstack (by simp [Instr.mnemonic])))
  | jeq | jne => split <;> rfl
  | nop | hlt | prn | cmp | jmp => rfl

/-- An instruction keeps all registers but those that the table lets it write; a raise keeps all. -/
theorem sameRegsExcept_of_exec {ins : Instr} {s t : State} {rs : List RegIdx} (h : exec ins s = .next t)
    (hrs : ∀ r, MayWrite ins r → r ∈ rs) : SameRegsExcept rs s t := by
  intro r hr
  obtain he | ⟨c, -, rfl⟩ := exec_next_cases h
  · exact he.reg_eq (mt (hrs r) hr)
  · exact raise_reg c s r

theorem head?_operands_ret {ins : Instr} (h : ins.mnemonic = .ret) : ins.operands.head? = none := by
  have hlen := ins.length_operands
  rw [h] at hlen
  rw [List.head?_eq_none_iff, List.eq_nil_iff_length_eq_zero, hlen]
  rfl

/-- Settles O29: each clause reads the registers that may be written off the table. -/
theorem registersChangeOnlyAsTabulated : Obligations.RegistersChangeOnlyAsTabulated := by
  refine fun ins s t h => ⟨fun hm => ?none, fun hm => ?stack, fun hm i hi => ?pop, fun i hi hm => ?destination⟩ <;>
    refine sameRegsExcept_of_exec h fun r hr => ?_
  case none =>
    have hdisjoint : ∀ m ∈ [Mnemonic.nop, .hlt, .prn, .jmp, .jeq, .jne, .cmp],
        m ∉ [.push, .pop, .call, .ret] ∧ m ∉ Mnemonic.pop :: aluMnemonics := by decide
    obtain ⟨hstack, hresult⟩ := hdisjoint _ hm
    obtain ⟨-, hm'⟩ | ⟨hm', -⟩ := hr
    · exact absurd hm' hstack
    · exact absurd hm' hresult
  case stack =>
    have hdisjoint : ∀ m ∈ [Mnemonic.push, .call, .ret], m ∉ Mnemonic.pop :: aluMnemonics := by decide
    obtain ⟨rfl, -⟩ | ⟨hm', -⟩ := hr
    · exact List.mem_singleton_self 7
    · exact absurd hm' (hdisjoint _ hm)
  case pop =>
    subst hi
    obtain ⟨rfl, -⟩ | ⟨-, hop⟩ := hr
    · simp
    · simp [regByte_inj (Option.some.inj hop)]
  case destination =>
    obtain ⟨-, hm'⟩ | ⟨-, hop⟩ := hr
    · have hret : ins.mnemonic = .ret := by
        simp only [List.mem_cons, List.not_mem_nil, or_false, not_or] at hm hm'
        tauto
      simp [head?_operands_ret hret] at hi
    · simp [regByte_inj (Option.some.inj (hi.symm.trans hop))]

/-! ### Memory -/

/-- Settles O28. -/
theorem memoryPrimitivesReadAndWriteOneByte : Obligations.MemoryPrimitivesReadAndWriteOneByte := by
  refine fun s addr v => ⟨fun h0 h1 => ⟨memRead_of_range s h0 (by omega), fun hwf => ?inside⟩, fun hout => ?outside⟩
  case inside =>
    refine ⟨_, memWrite_of_range s v h0 (by omega), ?value, ?others, ?wf, rfl⟩
    case value => rw [Memory.read_write hwf, if_pos rfl, trunc8_toNat]
    case others =>
      intro a ha
      rw [Memory.read_write hwf, if_neg (by omega)]
    case wf => exact Memory.wf_write hwf (by simp only [Config.memSize]; omega)
  case outside =>
    have hrange : ¬ (0 ≤ addr ∧ addr < ((Config.memSize : Nat) : Int)) := by simp only [Config.memSize]; omega
    exact ⟨memRead_out_of_range s (by omega), if_neg hrange⟩

/-- Settles O30: the store of PUSH and CALL is that of `pushed`, and no other effect touches memory. -/
theorem onlyPushAndCallWriteMemory : Obligations.OnlyPushAndCallWriteMemory := by
  intro s t hwf h
  obtain ⟨-, ⟨i, hf, he⟩ | ⟨c, -, rfl⟩⟩ := cycle_effect_or_raise h
  · obtain hkept | ⟨hm, hpos, v, hpushed⟩ := he.mem_cases
    · exact .inl fun a => by rw [hkept]
    · refine .inr ⟨?opcode, ?address, ?others⟩
      case opcode =>
        rw [← opcode_of_fetchDecode hf]
        exact List.mem_map_of_mem (f := defaultOpMap) hm
      case address =>
        rw [stackTop]
        omega
      case others =>
        intro a ha
        rw [hpushed]
        rw [← stackTop_decremented hpos] at ha
        exact sameMemoryExcept_pushed hwf hpos v a ha
  · exact .inl fun _ => rfl

/-! ### Output -/

/-- Settles O31: the PRN that was fetched has its opcode and its register at `pc`. -/
theorem onlyPrnExtendsTheOutput : Obligations.OnlyPrnExtendsTheOutput := by
  intro s t h
  obtain ⟨-, ⟨ins, hf, he⟩ | ⟨c, -, rfl⟩⟩ := cycle_effect_or_raise h
  · obtain hkept | ⟨i, rfl, hout⟩ := he.out_cases
    · exact .inl hkept
    · have hoperand : [regByte i] = [s.mem.read (s.pc.toNat + 1)] := operands_of_fetchDecode hf
      exact .inr ⟨i, (opcode_of_fetchDecode hf).symm, (List.singleton_inj.mp hoperand).symm, hout⟩
  · exact .inl rfl

end Sys2Proof.Machine

/-! ## Reset and loading (R33, R230 to R233) -/

namespace Sys2Proof.Machine

/-- Settles O1. -/
theorem resetStateHasTheSpecValues : Obligations.ResetStateHasTheSpecValues :=
  ⟨by decide, rfl, rfl, rfl, rfl, rfl, fun _ => rfl⟩

/-- Settles O2. -/
theorem resetInputSetsEverythingButMemory : Obligations.ResetInputSetsEverythingButMemory := fun _ => ⟨rfl, rfl⟩

theorem ofImage_of_le {program : List Byte} (h : program.length ≤ 256) :
    Memory.ofImage program = some (Memory.place program 0) := if_pos h

theorem ofImage_of_gt {program : List Byte} (h : 256 < program.length) : Memory.ofImage program = none :=
  if_neg (Nat.not_le_of_gt h)

/-- Settles O3: the image of a program is its bytes placed from address 0. -/
theorem loadedProgramIsTheZeroFilledImage : Obligations.LoadedProgramIsTheZeroFilledImage := by
  intro program
  refine ⟨fun h => ?loads, fun h => ?tooLong⟩
  case loads =>
    have himg := ofImage_of_le h
    refine ⟨State.resetWith (Memory.place program 0), ?some, fun k => ?read, Memory.wf_ofImage himg, rfl⟩
    case some => rw [loadProgram, himg, Option.map_some]
    case read =>
      have hread := Memory.read_place program 0 k (by simpa using h)
      rwa [Nat.zero_add] at hread
  case tooLong => rw [loadProgram, ofImage_of_gt h, Option.map_none]

end Sys2Proof.Machine

/-! ## How steps follow one another (R87, R94), and the instruction the host places (log entry 6) -/

namespace Sys2Proof.Machine

/-! ### ADVANCE -/

/-- Settles O24: a machine still RUNNING raised nothing and ran no HLT, so `pc` is that of the generic advance. -/
theorem stepAdvancesByTheOpcodeArity : Obligations.StepAdvancesByTheOpcodeArity := by
  intro s t ir opa opb m hb hm hflow h ht
  obtain ⟨hpc, hir, -, -⟩ := hb
  obtain ⟨ins, hf, he⟩ := effect_of_cycle_running h ht
  obtain ⟨hinj, harity⟩ := defaultOpMap_valid
  have hins : ins.mnemonic = m := hinj _ _ (by rw [opcode_of_fetchDecode hf, hir, hm])
  obtain hadv | ⟨hctl, -⟩ | ⟨hhalted, -⟩ := he.pc_cases
  · have hcount := m.operandCount_le
    rw [hadv, hins, State.advance_pc_toNat hpc hcount, ← hm, harity]
    omega
  · exact absurd (hins ▸ hctl) hflow
  · simp [ht] at hhalted

/-! ### The run through zero memory -/

/-- The opcode of NOP is 0 (D2). -/
theorem step_of_zero_opcode {s : State} (hrun : s.run = .running) (hpc : s.pc.toNat ≤ 253)
    (h : s.mem.read s.pc.toNat = 0) : step s = .next (s.advance 0) := by
  have hnop : decode defaultOpMap 0 (s.mem.read (s.pc.toNat + 1)) (s.mem.read (s.pc.toNat + 2)) = .ok .nop := rfl
  exact (cycle_exec hrun (FetchedBytes.fetchDecode_eq_ok ⟨hpc, h, rfl, rfl⟩ hnop)).trans (exec_nop s)

/-- A run of `k` NOPs and whatever follows them, below 254. -/
theorem core_run_zero_memory {s : State} (k n : Nat) (hrun : s.run = .running) (hpc : s.pc.toNat + k = 254)
    (hmem : ∀ a, s.pc.toNat ≤ a → s.mem.read a = 0) :
    Sys2Proof.core.run (k + n) s = Sys2Proof.core.run n { s with pc := 254 } := by
  induction k generalizing s with
  | zero =>
    have hs : s = { s with pc := 254 } := by
      have hpc254 : s.pc = 254 := BitVec.eq_of_toNat_eq hpc
      rw [← hpc254]
    rw [Nat.zero_add, ← hs]
  | succ k ih =>
    have hle : s.pc.toNat ≤ 253 := by omega
    have hpc' : (s.advance 0).pc.toNat = s.pc.toNat + 1 := State.advance_pc_toNat hle (Nat.zero_le 2)
    have hstep := step_of_zero_opcode hrun hle (hmem _ le_rfl)
    have hrest := ih (s := s.advance 0) hrun (by omega) fun a ha => hmem a (by omega)
    rw [Nat.add_right_comm, core_run_succ_next _ hstep, hrest]
    rfl

/-- Settles O25: the NOPs lead to 254, and the step after them is the fetch there. -/
theorem zeroMemoryRunsNopsUpTo254 : Obligations.ZeroMemoryRunsNopsUpTo254 := by
  intro s hrun hpc hmem
  have hsum : s.pc.toNat + (254 - s.pc.toNat) = 254 := by omega
  refine ⟨core_run_zero_memory _ 0 hrun hsum hmem, ?raise⟩
  case raise =>
    have hlo : 254 ≤ (254 : PcWord).toNat := by decide
    have hhi : (254 : PcWord).toNat ≤ 256 := by decide
    have hfetch := fetchAbove253Raises { s with pc := 254 } hrun hlo hhi
    exact (core_run_zero_memory _ 1 hrun hsum hmem).trans (core_run_succ_next 0 hfetch)

/-! ### The instruction the host places -/

/-- A store from `a` upward leaves the bytes below. -/
theorem Memory.read_storeBytes_of_lt {m : Memory} (hwf : m.wf = true) {a b : Nat} (bs : List Byte) (h : b < a) :
    (m.storeBytes a bs).read b = m.read b := by
  induction bs generalizing m a with
  | nil => rfl
  | cons v rest ih =>
    rw [Memory.storeBytes]
    split
    next ha => rw [ih (Memory.wf_write hwf ha) (by omega), Memory.read_write hwf, if_neg (by omega)]
    next => exact ih hwf (by omega)

/-- Where every address exists, the bytes stored are read back. -/
theorem Memory.read_storeBytes_add {m : Memory} (hwf : m.wf = true) {a k : Nat} {bs : List Byte}
    (hroom : a + bs.length ≤ Config.memSize) (hk : k < bs.length) : (m.storeBytes a bs).read (a + k) = bs[k] := by
  induction bs generalizing m a k with
  | nil => cases hk
  | cons v rest ih =>
    rw [List.length_cons] at hroom hk
    have ha : a < Config.memSize := by omega
    have hwf' := Memory.wf_write (v := v) hwf ha
    rw [Memory.storeBytes, if_pos ha]
    cases k with
    | zero =>
      have hkept := Memory.read_storeBytes_of_lt hwf' rest (Nat.lt_succ_self a)
      rw [Memory.read_write hwf, if_pos rfl] at hkept
      exact hkept
    | succ k =>
      have hrest := ih (a := a + 1) (k := k) hwf' (by omega) (by omega)
      rwa [Nat.add_right_comm] at hrest

/-- The word placed is what the next step fetches. -/
theorem fetchedBytes_withFetchWord {s : State} (hpc : s.pc.toNat ≤ 253) (hwf : s.mem.wf = true) (nbits w : Nat) :
    FetchedBytes (s.withFetchWord nbits w) (tableByte nbits w 0) (tableByte nbits w 1) (tableByte nbits w 2) := by
  have hread : ∀ k (hk : k < 3), (s.withFetchWord nbits w).mem.read (s.pc.toNat + k) =
      [tableByte nbits w 0, tableByte nbits w 1, tableByte nbits w 2][k] := fun k hk =>
    Memory.read_storeBytes_add hwf (by simp only [List.length_cons, List.length_nil, Config.memSize]; omega) hk
  exact ⟨hpc, hread 0 (by decide), hread 1 (by decide), hread 2 (by decide)⟩

theorem decode_of_decodeTableWord {nbits w : Nat} {i : Instr} (h : decodeTableWord nbits w = some i) :
    decode defaultOpMap (tableByte nbits w 0) (tableByte nbits w 1) (tableByte nbits w 2) = .ok i := by
  unfold decodeTableWord at h
  split at h
  next j hj => rw [hj, Option.some.inj h]
  next => cases h

/-- Settles O26. -/
theorem placedWordIsTheNextInstruction : Obligations.PlacedWordIsTheNextInstruction := by
  intro s nbits w i hrun hpc hwf hword
  have hbytes := fetchedBytes_withFetchWord hpc hwf nbits w
  exact ⟨cycle_exec hrun (hbytes.fetchDecode_eq_ok (decode_of_decodeTableWord hword)), rfl⟩

end Sys2Proof.Machine
